-- ==== Sys2Proof/Word.lean ====
section
/-! DEFINITION. The bit-vector types of the engine, by the widths of 00_scope.md R7 and 30_encoding.md R82.
Every data value of the engine is an unsigned bit vector of fixed width (42_round_function.md R157); the
operations on them are in Machine/Primitives.lean. -/

namespace Sys2Proof

/-- A 64-bit block, key, operand WDATA or read data RDATA (R7, R82). -/
abbrev Block := BitVec 64

/-- A 32-bit half-block (R7). -/
abbrev Half := BitVec 32

/-- A 48-bit round key, or another 48-bit value inside the round function (R7). -/
abbrev RoundKey := BitVec 48

/-- A 28-bit half of the key-schedule working value (R7). -/
abbrev KeyHalf := BitVec 28

/-- A 16-bit command word CMD (R70). -/
abbrev CmdWord := BitVec 16

/-- A byte of text or of a secret, outside the engine (R51, R52). -/
abbrev Byte := BitVec 8

/-- The sixteen round keys: position r-1 holds the key of index r, 1 ≤ r ≤ 16 (R7, R23). -/
abbrev RoundKeySet := Vector RoundKey 16

end Sys2Proof
end

