-- ==== Sys2Proof/Config.lean ====
section
/-! DEFINITION. The parameter TABLES of 00_scope.md R8: its type and what makes a value of it well formed
(40_primitives_and_tables.md R103, R105). The command set and the step take it as an argument (execOn, stepOn); exec and
step are theirs at the default instance, which is in Machine/DefaultTables.lean, where it can be mended. The other
parameters of R8, LAT and NLANES, are read by no rule and have no place here (assumption log 10 and 11); WS of R218 is an
argument of the host functions. -/

namespace Sys2Proof

/-- `TABLES` (R103): the constant tables. An index table holds 1-indexed source bit positions, its entry 1 first.
An S-box is four rows of sixteen 4-bit values, so R103's "every entry in 0..15" holds by the type. -/
structure Tables where
  ip  : Vector Nat 64
  fp  : Vector Nat 64
  pc1 : Vector Nat 56
  pc2 : Vector Nat 48
  e   : Vector Nat 48
  p   : Vector Nat 32
  s   : Vector (Vector (Vector (BitVec 4) 16) 4) 8
  deriving DecidableEq, Repr

/-- Every entry of an index table lies in 1..n (R103). -/
abbrev InRange {m : Nat} (T : Vector Nat m) (n : Nat) : Prop :=
  ∀ j : Fin m, 1 ≤ T[j] ∧ T[j] ≤ n

/-- An index table is a permutation of 1..m: its entries lie in 1..m and are distinct (R103). -/
abbrev IsPermutation {m : Nat} (T : Vector Nat m) : Prop :=
  InRange T m ∧ ∀ j k : Fin m, T[j] = T[k] → j = k

/-- `B[A[j]] = j` for every j in 1..m (R105). -/
abbrev UndoesEntries {m : Nat} (A B : Vector Nat m) : Prop :=
  ∀ j : Fin m, B[A[j] - 1]? = some (j.val + 1)

/-- Several entries appear twice: at least two positions are each named exactly twice (R103's words for E; how many are
"several" is assumption log 22). -/
abbrev SeveralTwice {m : Nat} (T : Vector Nat m) : Prop :=
  ∃ a b : Nat, a ≠ b ∧ T.toList.count a = 2 ∧ T.toList.count b = 2

/-- A well-formed value of TABLES (R103): the engine is defined only for these (93_implementation_defined.md
U16; assumption log 20; what the bit functions answer at an entry out of range is log 23). -/
structure Tables.WellFormed (T : Tables) : Prop where
  ip_perm   : IsPermutation T.ip
  fp_perm   : IsPermutation T.fp
  fp_of_ip  : UndoesEntries T.ip T.fp
  ip_of_fp  : UndoesEntries T.fp T.ip
  pc1_range : InRange T.pc1 64
  pc2_range : InRange T.pc2 56
  e_range   : InRange T.e 32
  e_repeats : SeveralTwice T.e
  p_perm    : IsPermutation T.p

end Sys2Proof
end

