-- ==== Sys2Proof/Machine/Primitives.lean ====
section
/-! DEFINITION. Bit numbering (00_scope.md R11, R12) and the three primitive functions of the engine's data path:
Permute, RotL and SboxLookup (40_primitives_and_tables.md R100 to R102). -/

namespace Sys2Proof.Machine

/-- Source bit `V<i>` = `V[n - i]`, 1 ≤ i ≤ n (R11). Outside 1..n, which only ill-formed TABLES name (U16), the spec states
no value and the body's is the model's choice: false at i = 0, and the least significant bit `V[0]` at i > n, where `n - i`
is 0 (DESIGN CHOICE, assumption log 23). -/
def srcBit {n : Nat} (V : BitVec n) (i : Nat) : Bool := V.getLsbD (n - i)

/-- The m-bit value W with `W<j+1>` = `b j`, j = 0..m-1: most significant bit first (R11). -/
def ofSrcBits : (m : Nat) → (Nat → Bool) → BitVec m
  | 0, _ => 0#0
  | m + 1, b => (ofSrcBits m b).concat (b m)

/-- The slice `V<a .. a+len-1>` (R12); a slice outside 1..n is the model's choice (DESIGN CHOICE, assumption log 23). -/
def srcSlice {n : Nat} (V : BitVec n) (a len : Nat) : BitVec len := V.extractLsb' (n + 1 - a - len) len

/-- `Permute(V, T)`: `W<j> = V<T[j]>` for j = 1..m (R100). An entry outside 1..n (ill-formed TABLES, U16) reads what `srcBit`
answers there: entry 0 a zero bit, an entry above n the least significant bit (DESIGN CHOICE, assumption log 23). -/
def permute {n m : Nat} (V : BitVec n) (T : Vector Nat m) : BitVec m :=
  ofSrcBits m fun j => srcBit V (T.getD j 0)

/-- `RotL(V, s)`, 0 ≤ s < n, the integer form of R101; s ≥ n is met by no rule (DESIGN CHOICE, assumption log 23). -/
def rotL {n : Nat} (V : BitVec n) (s : Nat) : BitVec n := (V <<< s) ||| (V >>> (n - s))

/-- The row of a group: `2 * g<1> + g<6>` (R102). -/
def sboxRow (g : BitVec 6) : BitVec 2 := ofSrcBits 2 fun j => if j = 0 then srcBit g 1 else srcBit g 6

/-- The column of a group: `g<2..5>` (R102). -/
def sboxCol (g : BitVec 6) : BitVec 4 := srcSlice g 2 4

/-- `SboxLookup(i, g) = S[i][row][col]` (R102); `i` is the S-box's number less one. -/
def sboxLookup (T : Tables) (i : Fin 8) (g : BitVec 6) : BitVec 4 :=
  (T.s[i][(sboxRow g).toNat]'(sboxRow g).isLt)[(sboxCol g).toNat]'(sboxCol g).isLt

end Sys2Proof.Machine
end

