-- ==== Sys2Proof/Machine/State.lean ====
section
/-! DEFINITION. The state of the engine (10_state.md R20), the host's side of its command port, the reasons a step can
stop, and the state after reset (10_state.md R33, 70_reset_and_hazards.md R270). -/

namespace Sys2Proof.Machine

/-- `PHASE` (R29): 0 IDLE, 1 KS, 2 BC. The value 3 never occurs and has no constructor (93_implementation_defined.md
U8; assumption log 4). -/
inductive Phase where
  | idle
  | ks
  | bc
  deriving DecidableEq, Repr

/-- `DIR` (R27): the direction of a block operation, ENC (0) or DEC (1). -/
inductive Direction where
  | enc
  | dec
  deriving DecidableEq, Repr

/-- The complete list of errors (60_exceptions.md R241). -/
inductive Error where
  | illcmd
  | badidx
  | nokey
  | nosched
  | notrace
  deriving DecidableEq, Repr

/-- The status of a response (30_encoding.md R78): six values (93_implementation_defined.md U9; assumption log 4). -/
inductive Status where
  | ok
  | fail (e : Error)
  deriving DecidableEq, Repr

/-- A response: the pair STAT, RDATA (30_encoding.md R77). -/
structure Response where
  stat  : Status
  rdata : Block
  deriving DecidableEq, Repr

/-- What the host can do next (00_scope.md R15, 30_encoding.md R83, 45_host_driver.md R222; assumption log 1). -/
inductive HostMove where
  /-- Issue (CMD, WDATA), let the command run to its response, and take the response: one transaction (R9). -/
  | command (cmd : CmdWord) (wdata : Block)
  /-- Issue (CMD, WDATA); the engine then proceeds one micro-step per step (R9). -/
  | start (cmd : CmdWord) (wdata : Block)
  /-- Take the response when it is there. -/
  | take
  /-- Do nothing while the engine acts once. -/
  | wait
  /-- Assert `rst` and release it (R270). -/
  | reset
  deriving DecidableEq, Repr

/-- The complete state of the engine (R20), 2632 bits. `rk` and `tf` hold index r at position r-1 (their indices start
at 1); `tl` and `tr` hold index r at position r. -/
structure Engine where
  key   : Block
  rk    : RoundKeySet
  c     : KeyHalf
  d     : KeyHalf
  l     : Half
  r     : Half
  dout  : Block
  tl    : Vector Half 17
  tr    : Vector Half 17
  tf    : Vector Half 16
  kl    : Bool
  kv    : Bool
  tv    : Bool
  dir   : Direction
  err   : BitVec 5
  phase : Phase
  rnd   : BitVec 5
  deriving DecidableEq, Repr

/-- The engine, its command port and the host that drives it. `wdata` is the operand as sampled at acceptance (R83),
`rsp` the response presented (R82, R83), `moves` the host's moves still to come, `taken` the responses the host has
taken, oldest first (70_reset_and_hazards.md R277). The last four are the model's own fields (assumption log 1). -/
structure State where
  eng   : Engine
  wdata : Block
  rsp   : Option Response
  moves : List HostMove
  taken : List Response
  deriving DecidableEq, Repr

/-- How a step can stop the machine. -/
inductive Fault where
  /-- Raised by the sequencer in a state with PHASE = KS and RND ≥ 16, or PHASE = BC and RND ≥ 17: no rule of the spec
  applies there and no run reaches it (R29, R134, R173, R174). Safe (assumption log 5). -/
  | sequencerStuck
  deriving DecidableEq, Repr

/-- Why an instruction has no meaning. -/
inductive Refusal where
  /-- Raised by an arm of `exec` whose instruction is not modelled yet; no arm raises it now. Safe. -/
  | notModelled (mnemonic : String)
  deriving DecidableEq, Repr

/-- Every state element at its reset value, all zero (R33). -/
def Engine.reset : Engine where
  key := 0#64
  rk := Vector.replicate 16 0#48
  c := 0#28
  d := 0#28
  l := 0#32
  r := 0#32
  dout := 0#64
  tl := Vector.replicate 17 0#32
  tr := Vector.replicate 17 0#32
  tf := Vector.replicate 16 0#32
  kl := false
  kv := false
  tv := false
  dir := .enc
  err := 0#5
  phase := .idle
  rnd := 0#5

/-- The machine right after reset: the engine as R33, no response pending (R270: `cmd_ready` is 1). The host has made
no move and none is waiting (assumption log 1); the operand port shows 0 (DESIGN CHOICE, assumption log 9). -/
def State.reset : State where
  eng := Engine.reset
  wdata := 0#64
  rsp := none
  moves := []
  taken := []

end Sys2Proof.Machine
end

