-- ==== Sys2Proof/Machine/Operands.lean ====
section
/-! DEFINITION. The operand and result forms: the index spaces (20_memory.md R50), the registers an index selects
(30_encoding.md R84) and the placement of narrow values in RDATA (20_memory.md R56). The operand WDATA is used as it
stands, all 64 bits (R84): it is the state's field `wdata`. -/

namespace Sys2Proof.Machine

/-- The legal indices of RK and TF: 1..16 (R50). -/
abbrev RoundIndex (idx : Nat) : Prop := 1 ≤ idx ∧ idx ≤ 16

/-- The legal indices of TL and TR: 0..16 (R50). -/
abbrev HalfIndex (idx : Nat) : Prop := idx ≤ 16

/-- `RK[idx]` (R23). -/
def Engine.RK (e : Engine) (idx : Nat) (h : RoundIndex idx) : RoundKey :=
  e.rk[idx - 1]'(by have := h.1; have := h.2; omega)

/-- `TF[idx]` (R31). -/
def Engine.TF (e : Engine) (idx : Nat) (h : RoundIndex idx) : Half :=
  e.tf[idx - 1]'(by have := h.1; have := h.2; omega)

/-- `TL[idx]` (R31). -/
def Engine.TL (e : Engine) (idx : Nat) (h : HalfIndex idx) : Half := e.tl[idx]'(Nat.lt_succ_of_le h)

/-- `TR[idx]` (R31). -/
def Engine.TR (e : Engine) (idx : Nat) (h : HalfIndex idx) : Half := e.tr[idx]'(Nat.lt_succ_of_le h)

/-- `zext_64(v)` (R12). -/
def zext64 {n : Nat} (v : BitVec n) : Block := v.setWidth 64

end Sys2Proof.Machine
end

