-- ==== Sys2Proof/Machine/Cipher.lean ====
section
/-! DEFINITION. The pure functions of the cipher, each over any tables `T`: the key schedule KS (41_key_schedule.md R130),
the round function f (42_round_function.md R150 to R154) and BlockFn (43_block_cipher.md R170, R171). A round index
`i : Fin 16` stands for round r = i + 1. -/

namespace Sys2Proof.Machine

/-- C₀ and D₀: the first and the last 28 bits of `Permute(k, PC1)` (R130). -/
def ksStart (T : Tables) (k : Block) : KeyHalf × KeyHalf :=
  let t := permute k T.pc1
  (srcSlice t 1 28, srcSlice t 29 28)

/-- One round's rotation of both halves, independently (R130). -/
def ksRotate (i : Fin 16) (cd : KeyHalf × KeyHalf) : KeyHalf × KeyHalf :=
  (rotL cd.1 shift[i], rotL cd.2 shift[i])

/-- (C_n, D_n): the halves after n rounds, the rotations accumulating (R130). -/
def ksHalves (T : Tables) (k : Block) : Nat → KeyHalf × KeyHalf
  | 0 => ksStart T k
  | n + 1 => if h : n < 16 then ksRotate ⟨n, h⟩ (ksHalves T k n) else ksHalves T k n

/-- The round key taken from rotated halves: `Permute(C || D, PC2)` (R130). -/
def ksSelect (T : Tables) (cd : KeyHalf × KeyHalf) : RoundKey :=
  permute (m := 48) (cd.1 ++ cd.2) T.pc2

/-- `KS(k)` = K[1..16] (R130). -/
def ks (T : Tables) (k : Block) : RoundKeySet :=
  Vector.ofFn fun i : Fin 16 => ksSelect T (ksHalves T k (i.val + 1))

/-- Step 1 of f, expansion (R151). -/
def expand (T : Tables) (R : Half) : RoundKey := permute R T.e

/-- Step 2 of f, key mixing (R152). -/
def keyMix (X K : RoundKey) : RoundKey := X ^^^ K

/-- Group number i of an expanded value, `Y<6i-5 .. 6i>` (R153). -/
def sboxGroup (Y : RoundKey) (i : Fin 8) : BitVec 6 := srcSlice Y (6 * (i.val + 1) - 5) 6

/-- Step 3 of f, substitution: `o_1 || ... || o_8`, o_1 leftmost (R153). -/
def substitute (T : Tables) (Y : RoundKey) : Half :=
  let o := fun i : Fin 8 => sboxLookup T i (sboxGroup Y i)
  o 0 ++ o 1 ++ o 2 ++ o 3 ++ o 4 ++ o 5 ++ o 6 ++ o 7

/-- `f(R, K)`: expansion, key mixing, substitution, permutation (R150, R154). -/
def roundF (T : Tables) (R : Half) (K : RoundKey) : Half :=
  permute (substitute T (keyMix (expand T R) K)) T.p

/-- Round-key selection: RK[r] for ENC, RK[17 - r] for DEC (R171); with r = i + 1 the latter stands at 15 - i. -/
def roundKeyFor (dir : Direction) (rks : RoundKeySet) (i : Fin 16) : RoundKey :=
  match dir with
  | .enc => rks[i]
  | .dec => rks[15 - i.val]

/-- L₀ and R₀: the halves of `Permute(B, IP)` (R170). -/
def blockStart (T : Tables) (B : Block) : Half × Half :=
  let v := permute B T.ip
  (srcSlice v 1 32, srcSlice v 33 32)

/-- One Feistel round: (L, R) becomes (R, L xor f(R, K)) (R170). -/
def feistel (T : Tables) (K : RoundKey) (lr : Half × Half) : Half × Half :=
  (lr.2, lr.1 ^^^ roundF T lr.2 K)

/-- (L_n, R_n): the halves after n rounds (R170). -/
def blockHalves (T : Tables) (B : Block) (rks : RoundKeySet) (dir : Direction) : Nat → Half × Half
  | 0 => blockStart T B
  | n + 1 =>
    if h : n < 16 then feistel T (roundKeyFor dir rks ⟨n, h⟩) (blockHalves T B rks dir n)
    else blockHalves T B rks dir n

/-- `F_r`, the output of f in round r = i + 1 (R170). -/
def blockF (T : Tables) (B : Block) (rks : RoundKeySet) (dir : Direction) (i : Fin 16) : Half :=
  roundF T (blockHalves T B rks dir i.val).2 (roundKeyFor dir rks i)

/-- The last step: `Permute(R || L, FP)`, R on the left (R170, R174; 90_conflicts.md C3). -/
def blockFinish (T : Tables) (lr : Half × Half) : Block :=
  permute (m := 64) (lr.2 ++ lr.1) T.fp

/-- `BlockFn(B, RKS, dir)` (R170). -/
def blockFn (T : Tables) (B : Block) (rks : RoundKeySet) (dir : Direction) : Block :=
  blockFinish T (blockHalves T B rks dir 16)

end Sys2Proof.Machine
end

