-- ==== Sys2Proof/Machine/Flags.lean ====
section
/-! DEFINITION. Status codes, the sticky error bits and the status word (30_encoding.md R78, 60_exceptions.md R241,
10_state.md R28, R30). The flags KL, KV, TV and DIR are written by the command rules themselves (10_state.md R27). -/

namespace Sys2Proof.Machine

/-- The code of an error (R241). -/
def Error.code : Error → BitVec 4
  | .illcmd => 0x1#4
  | .badidx => 0x2#4
  | .nokey => 0x3#4
  | .nosched => 0x4#4
  | .notrace => 0x5#4

/-- The value of STAT (R78). -/
def Status.code : Status → BitVec 4
  | .ok => 0x0#4
  | .fail e => e.code

/-- The bit of ERR that an error sets: `ERR[c-1]` for code c (R28, R245). -/
def Error.bit (e : Error) : Nat := e.code.toNat - 1

/-- ERR with one more error remembered (R245, R248). -/
def rememberError (err : BitVec 5) (e : Error) : BitVec 5 := err ||| (1#5 <<< e.bit)

/-- The value of PHASE (R29). -/
def Phase.code : Phase → BitVec 2
  | .idle => 0#2
  | .ks => 1#2
  | .bc => 2#2

/-- The value of DIR (R27). -/
def Direction.bit : Direction → BitVec 1
  | .enc => 0#1
  | .dec => 1#1

/-- `STATUS` (R30): KL, KV, TV, DIR in bits 0 to 3, zero in 7:4, ERR in 12:8, zero above. -/
def statusWord (e : Engine) : Block :=
  0#51 ++ e.err ++ 0#4 ++ e.dir.bit ++ BitVec.ofBool e.tv ++ BitVec.ofBool e.kv ++ BitVec.ofBool e.kl

end Sys2Proof.Machine
end

