-- ==== Sys2Proof/Machine/Ops.lean ====
section
/-! DEFINITION. The operations every command rule uses: responding, failing with an error, clearing the engine, and the
host's taking of a response (00_scope.md R13, 60_exceptions.md R245, 44_control.md R202, 30_encoding.md R83). The engine
has no trap and no return from one: `raise` is its whole error entry (R245, R247). -/

namespace Sys2Proof.Machine

/-- What a meaning or a step answers. -/
abbrev Result := Host.Outcome State Fault Refusal

/-- `respond(s, d)`: end the command with status code s and read data d (R13). -/
def respond (st : Status) (d : Block) (s : State) : State := { s with rsp := some ⟨st, d⟩ }

/-- `raise <Error>`: set the error's sticky bit, respond with its code and zero data, change nothing else (R245). -/
def raise (e : Error) (s : State) : State :=
  respond (.fail e) 0#64 { s with eng := { s.eng with err := rememberError s.eng.err e } }

/-- Every engine element takes its reset value (R33, R202, R270). -/
def clearEngine (s : State) : State := { s with eng := Engine.reset }

/-- The host takes the response, if one is presented (R83). -/
def takeResponse (s : State) : State :=
  match s.rsp with
  | some r => { s with rsp := none, taken := s.taken ++ [r] }
  | none => s

/-- `cmd_ready`: 1 exactly when PHASE = 0 and no response is pending (R82). -/
def cmdReady (s : State) : Bool := decide (s.eng.phase = .idle) && s.rsp.isNone

/-- `rsp_valid`: the engine presents a response (R82). -/
def rspValid (s : State) : Bool := s.rsp.isSome

/-- An outcome with its next state changed; a stop stays the stop it is. -/
def mapNext (g : State → State) : Result → Result
  | .next s => .next (g s)
  | .fault f => .fault f
  | .refused r => .refused r

end Sys2Proof.Machine
end

