-- ==== Sys2Proof/Machine/Sequencer.lean ====
section
/-! DEFINITION. The micro-steps of the sequencer (41_key_schedule.md R133, R134; 43_block_cipher.md R172 to R174), over any
tables, and the fixed sequences KEXP, ENC and DEC run (44_control.md R203). All right-hand sides read the values before
the step (00_scope.md R13). In a round, `i` is RND before the step, so the round number is r = i + 1. -/

namespace Sys2Proof.Machine

/-- KS_INIT (R133). -/
def ksInit (T : Tables) (e : Engine) : Engine :=
  let cd := ksStart T e.key
  { e with c := cd.1, d := cd.2, rnd := 0#5, phase := .ks }

/-- KS_ROUND with RND = i (R134). -/
def ksRoundAt (T : Tables) (i : Fin 16) (e : Engine) : Engine :=
  let cd := ksRotate i (e.c, e.d)
  { e with
    c := cd.1
    d := cd.2
    rk := e.rk.set i (ksSelect T cd)
    rnd := BitVec.ofNat 5 (i.val + 1)
    kv := if i.val + 1 = 16 then true else e.kv
    phase := if i.val + 1 = 16 then .idle else e.phase }

/-- KS_ROUND (R134). Its precondition is RND < 16; elsewhere no rule applies and the sequencer stops before it
(`microStep`). -/
def ksRound (T : Tables) (e : Engine) : Engine :=
  if h : e.rnd.toNat < 16 then ksRoundAt T ⟨e.rnd.toNat, h⟩ e else e

/-- BC_INIT (R172). -/
def bcInit (T : Tables) (wdata : Block) (dir : Direction) (e : Engine) : Engine :=
  let lr := blockStart T wdata
  { e with
    l := lr.1
    r := lr.2
    tl := e.tl.set 0 lr.1
    tr := e.tr.set 0 lr.2
    dir := dir
    rnd := 0#5
    phase := .bc }

/-- BC_ROUND with RND = i (R173). -/
def bcRoundAt (T : Tables) (i : Fin 16) (e : Engine) : Engine :=
  let fOut := roundF T e.r (roundKeyFor e.dir e.rk i)
  let newR := e.l ^^^ fOut
  { e with
    l := e.r
    r := newR
    tf := e.tf.set i fOut
    tl := e.tl.set (i.val + 1) e.r
    tr := e.tr.set (i.val + 1) newR
    rnd := BitVec.ofNat 5 (i.val + 1) }

/-- BC_ROUND (R173). Its precondition is RND < 16. -/
def bcRound (T : Tables) (e : Engine) : Engine :=
  if h : e.rnd.toNat < 16 then bcRoundAt T ⟨e.rnd.toNat, h⟩ e else e

/-- BC_FINAL (R174), less the response, which is the DOUT it leaves. -/
def bcFinal (T : Tables) (e : Engine) : Engine :=
  { e with dout := blockFinish T (e.l, e.r), tv := true, phase := .idle }

/-- KEXP's sequence: KS_INIT once, then KS_ROUND sixteen times (R132). -/
def runKexp (T : Tables) (e : Engine) : Engine := Nat.repeat (ksRound T) 16 (ksInit T e)

/-- ENC's and DEC's sequence: BC_INIT, sixteen BC_ROUND, BC_FINAL (R175, R176). -/
def runBlock (T : Tables) (wdata : Block) (dir : Direction) (e : Engine) : Engine :=
  bcFinal T (Nat.repeat (bcRound T) 16 (bcInit T wdata dir e))

/-- One step of the sequencer while it is busy: the micro-step PHASE and RND call for, with the command's response at
the end of the sequence (R29, R134, R173, R174). A state no rule covers is stuck (assumption log 5). -/
def microStep (T : Tables) (s : State) : Result :=
  match s.eng.phase with
  | .idle => .next s
  | .ks =>
    if s.eng.rnd.toNat < 16 then
      let e := ksRound T s.eng
      if e.phase = .idle then .next (respond .ok 0#64 { s with eng := e }) else .next { s with eng := e }
    else .fault .sequencerStuck
  | .bc =>
    if s.eng.rnd.toNat < 16 then .next { s with eng := bcRound T s.eng }
    else if s.eng.rnd.toNat = 16 then
      let e := bcFinal T s.eng
      .next (respond .ok e.dout { s with eng := e })
    else .fault .sequencerStuck

end Sys2Proof.Machine
end

