-- ==== Sys2Proof/Machine/BlockCipher.lean ====
section
/-! DEFINITION. The commands of the block cipher: ENC, DEC and the trace reads RDTL, RDTR, RDTF (43_block_cipher.md R175 to
R179). -/

namespace Sys2Proof.Machine

/-- ENC and DEC over any tables: NOSCHED unless the round keys are valid; then the whole sequence of micro-steps, its
output block both left in DOUT and returned (R175, R176). -/
def blockCommand (T : Tables) (dir : Direction) (s : State) : Result :=
  if s.eng.kv then
    let e := runBlock T s.wdata dir s.eng
    .next (respond .ok e.dout { s with eng := e })
  else .next (raise .nosched s)

/-- The trace reads: the index check has been made; NOTRACE unless the trace is valid (R177 to R179). -/
def traceRead (value : Half) (s : State) : Result :=
  if s.eng.tv then .next (respond .ok (zext64 value) s) else .next (raise .notrace s)

/-- ENC over any tables (R175). -/
def execEncOn (T : Tables) (s : State) : Result := blockCommand T .enc s

/-- DEC over any tables (R176). -/
def execDecOn (T : Tables) (s : State) : Result := blockCommand T .dec s

/-- ENC (R175). -/
def execEnc (s : State) : Result := execEncOn tables s

/-- DEC (R176). -/
def execDec (s : State) : Result := execDecOn tables s

/-- RDTL (R177). -/
def execRdtl (idx : Nat) (s : State) : Result :=
  if h : HalfIndex idx then traceRead (s.eng.TL idx h) s else .next (raise .badidx s)

/-- RDTR (R178). -/
def execRdtr (idx : Nat) (s : State) : Result :=
  if h : HalfIndex idx then traceRead (s.eng.TR idx h) s else .next (raise .badidx s)

/-- RDTF (R179): there is no TF[0]. -/
def execRdtf (idx : Nat) (s : State) : Result :=
  if h : RoundIndex idx then traceRead (s.eng.TF idx h) s else .next (raise .badidx s)

end Sys2Proof.Machine
end

