-- ==== Sys2Proof/Machine/Control.lean ====
section
/-! DEFINITION. The control commands: NOP, RDST, CLR (44_control.md R200 to R202). -/

namespace Sys2Proof.Machine

/-- NOP (R200): no state changes at all. -/
def execNop (s : State) : Result := .next (respond .ok 0#64 s)

/-- RDST (R201): the status word; ERR is not cleared by reading. -/
def execRdst (s : State) : Result := .next (respond .ok (statusWord s.eng) s)

/-- CLR (R202): every state element takes its reset value. -/
def execClr (s : State) : Result := .next (respond .ok 0#64 (clearEngine s))

end Sys2Proof.Machine
end

