-- ==== Sys2Proof/Machine/KeySchedule.lean ====
section
/-! DEFINITION. The commands of the key schedule: LDKEY, KEXP, RDRK (41_key_schedule.md R131, R132, R135). -/

namespace Sys2Proof.Machine

/-- LDKEY (R131): any 64-bit value is a legal key; the round keys stay but lose their validity. -/
def execLdkey (s : State) : Result :=
  .next (respond .ok 0#64 { s with eng := { s.eng with key := s.wdata, kl := true, kv := false } })

/-- KEXP over any tables (R132): NOKEY unless a key is loaded; then the whole sequence of micro-steps. -/
def execKexpOn (T : Tables) (s : State) : Result :=
  if s.eng.kl then .next (respond .ok 0#64 { s with eng := runKexp T s.eng })
  else .next (raise .nokey s)

/-- KEXP (R132). -/
def execKexp (s : State) : Result := execKexpOn tables s

/-- RDRK (R135): the index first, then KV. -/
def execRdrk (idx : Nat) (s : State) : Result :=
  if h : RoundIndex idx then
    if s.eng.kv then .next (respond .ok (zext64 (s.eng.RK idx h)) s)
    else .next (raise .nosched s)
  else .next (raise .badidx s)

end Sys2Proof.Machine
end

