-- ==== Sys2Proof/Syntax.lean ====
section
/-! DEFINITION. The command set: one constructor per row of spec/opcode_table.json (30_encoding.md R75). The 64-bit
operand WDATA is a port beside the command word (R70, R73), not a field of the word, so no constructor carries it:
the meanings read it from the state's sampled port. The micro-steps are not commands (R75). -/

namespace Sys2Proof

/-- A command of the engine. `idx` is CMD[8:4] as an unsigned number (R84). -/
inductive Instr where
  | nop
  | ldkey
  | kexp
  | enc
  | dec
  | rdrk (idx : Nat)
  | rdtl (idx : Nat)
  | rdtr (idx : Nat)
  | rdtf (idx : Nat)
  | rdst
  | clr
  deriving DecidableEq, Repr

/-- The mnemonic of a command, as R75 and opcode_table.json spell it. -/
def Instr.mnemonic : Instr → String
  | .nop => "NOP"
  | .ldkey => "LDKEY"
  | .kexp => "KEXP"
  | .enc => "ENC"
  | .dec => "DEC"
  | .rdrk _ => "RDRK"
  | .rdtl _ => "RDTL"
  | .rdtr _ => "RDTR"
  | .rdtf _ => "RDTF"
  | .rdst => "RDST"
  | .clr => "CLR"

end Sys2Proof
end

