-- ==== Sys2Proof/Machine/Dispatch.lean ====
section
/-! DEFINITION. The one match from a command to its meaning (30_encoding.md R75). -/

namespace Sys2Proof.Machine

def exec (i : Instr) (s : State) : Host.Outcome State Fault Refusal :=
  match i with
  | .nop => Sys2Proof.Machine.execNop s
  | .ldkey => Sys2Proof.Machine.execLdkey s
  | .kexp => Sys2Proof.Machine.execKexp s
  | .enc => Sys2Proof.Machine.execEnc s
  | .dec => Sys2Proof.Machine.execDec s
  | .rdrk idx => Sys2Proof.Machine.execRdrk idx s
  | .rdtl idx => Sys2Proof.Machine.execRdtl idx s
  | .rdtr idx => Sys2Proof.Machine.execRdtr idx s
  | .rdtf idx => Sys2Proof.Machine.execRdtf idx s
  | .rdst => Sys2Proof.Machine.execRdst s
  | .clr => Sys2Proof.Machine.execClr s

end Sys2Proof.Machine
end

