-- ==== Sys2Proof/WellFormed.lean ====
section
/-! DEFINITION. Which command terms stand for a command word: the only field is the 5-bit `idx` (30_encoding.md R72,
R84). An index that fits the field but is out of range for its command is well formed: it decodes, and the command
then fails with BADIDX (R76). -/

namespace Sys2Proof

/-- `idx` fits the field CMD[8:4]: 0..31 (R72). -/
def idxFits (idx : Nat) : Bool := decide (idx ≤ 31)

/-- A command that some word encodes. -/
def Instr.wellFormed : Instr → Bool
  | .nop => true
  | .ldkey => true
  | .kexp => true
  | .enc => true
  | .dec => true
  | .rdrk idx => idxFits idx
  | .rdtl idx => idxFits idx
  | .rdtr idx => idxFits idx
  | .rdtf idx => idxFits idx
  | .rdst => true
  | .clr => true

end Sys2Proof
end

