-- ==== Sys2Proof/Decode.lean ====
section
/-! DEFINITION. The decoder of 30_encoding.md R74, total on all 65536 words and rejecting by name the three cases of
R76; the opcode map of R75 as match and mask; and the encoder, written from the formats R71 and R72. -/

namespace Sys2Proof

/-- Why a word is illegal: the three cases of R76, in the order R74 finds them. -/
inductive IllegalWord where
  /-- `op` is 0xB to 0xF. -/
  | reservedOpcode
  /-- A word of format N with any of CMD[15:4] set. -/
  | upperBitsN
  /-- A word of format X with any of CMD[15:9] set. -/
  | upperBitsX
  deriving DecidableEq, Repr

/-- `op` = CMD[3:0] (R70). -/
def opField (w : CmdWord) : BitVec 4 := w.extractLsb' 0 4

/-- `idx` = CMD[8:4], unsigned (R84). -/
def idxField (w : CmdWord) : Nat := (w.extractLsb' 4 5).toNat

/-- CMD[15:4], zero in format N (R71). -/
def upperN (w : CmdWord) : BitVec 12 := w.extractLsb' 4 12

/-- CMD[15:9], zero in format X (R72). -/
def upperX (w : CmdWord) : BitVec 7 := w.extractLsb' 9 7

/-- A word of format N selects `i` when CMD[15:4] = 0 (R71). -/
def decodeN (w : CmdWord) (i : Instr) : Except IllegalWord Instr :=
  if upperN w = 0#12 then .ok i else .error .upperBitsN

/-- A word of format X selects `mk idx` when CMD[15:9] = 0 (R72). -/
def decodeX (w : CmdWord) (mk : Nat → Instr) : Except IllegalWord Instr :=
  if upperX w = 0#7 then .ok (mk (idxField w)) else .error .upperBitsX

/-- The decoding procedure R74 with the opcode map R75. -/
def decode (w : CmdWord) : Except IllegalWord Instr :=
  match (opField w).toNat with
  | 0x0 => decodeN w .nop
  | 0x1 => decodeN w .ldkey
  | 0x2 => decodeN w .kexp
  | 0x3 => decodeN w .enc
  | 0x4 => decodeN w .dec
  | 0x5 => decodeX w .rdrk
  | 0x6 => decodeX w .rdtl
  | 0x7 => decodeX w .rdtr
  | 0x8 => decodeX w .rdtf
  | 0x9 => decodeN w .rdst
  | 0xA => decodeN w .clr
  | _   => .error .reservedOpcode

/-- Format N: the word is the opcode (R71). -/
def encodeN (op : CmdWord) : CmdWord := op

/-- Format X: `op | (idx << 4)` (R72). -/
def encodeX (op : CmdWord) (idx : Nat) : CmdWord := op ||| (BitVec.ofNat 16 idx <<< 4)

/-- The word of a well-formed command (R71, R72, R75). -/
def encode : Instr → CmdWord
  | .nop => encodeN 0x0000#16
  | .ldkey => encodeN 0x0001#16
  | .kexp => encodeN 0x0002#16
  | .enc => encodeN 0x0003#16
  | .dec => encodeN 0x0004#16
  | .rdrk idx => encodeX 0x0005#16 idx
  | .rdtl idx => encodeX 0x0006#16 idx
  | .rdtr idx => encodeX 0x0007#16 idx
  | .rdtf idx => encodeX 0x0008#16 idx
  | .rdst => encodeN 0x0009#16
  | .clr => encodeN 0x000A#16

/-- The `match` column of R75. -/
def matchWord : Instr → CmdWord
  | .nop => 0x0000#16
  | .ldkey => 0x0001#16
  | .kexp => 0x0002#16
  | .enc => 0x0003#16
  | .dec => 0x0004#16
  | .rdrk _ => 0x0005#16
  | .rdtl _ => 0x0006#16
  | .rdtr _ => 0x0007#16
  | .rdtf _ => 0x0008#16
  | .rdst => 0x0009#16
  | .clr => 0x000A#16

/-- The `mask` column of R75: 0xFFFF in format N, 0xFE0F in format X. -/
def maskWord : Instr → CmdWord
  | .nop => 0xFFFF#16
  | .ldkey => 0xFFFF#16
  | .kexp => 0xFFFF#16
  | .enc => 0xFFFF#16
  | .dec => 0xFFFF#16
  | .rdrk _ => 0xFE0F#16
  | .rdtl _ => 0xFE0F#16
  | .rdtr _ => 0xFE0F#16
  | .rdtf _ => 0xFE0F#16
  | .rdst => 0xFFFF#16
  | .clr => 0xFFFF#16

/-- The decoder's answer on an instruction given as a number whose bit 0 is CMD[0] (opcode_table.json's numbering).
Only the low `nbits` bits count and all above them are 0; a command word is the low 16 (R70; assumption log 21). -/
def decodeTableWord (nbits w : Nat) : Option Instr :=
  match decode (BitVec.ofNat 16 (w % 2 ^ nbits)) with
  | .ok i => some i
  | .error _ => none

end Sys2Proof
end

