-- ==== Sys2Proof/Machine/OnTables.lean ====
section
/-! DEFINITION. The command set with the parameter TABLES of 00_scope.md R8 as an argument. Only KEXP, ENC and DEC read the
tables; every other command is the meaning `exec` calls too. `exec` is `execOn` at the model's tables (assumption log 2). -/

namespace Sys2Proof.Machine

/-- A command over any tables (R8, R75; 10_state.md R21). -/
def execOn (T : Tables) (i : Instr) (s : State) : Result :=
  match i with
  | .nop => execNop s
  | .ldkey => execLdkey s
  | .kexp => execKexpOn T s
  | .enc => execEncOn T s
  | .dec => execDecOn T s
  | .rdrk idx => execRdrk idx s
  | .rdtl idx => execRdtl idx s
  | .rdtr idx => execRdtr idx s
  | .rdtf idx => execRdtf idx s
  | .rdst => execRdst s
  | .clr => execClr s

end Sys2Proof.Machine
end

