-- ==== Sys2Proof/Machine/HostPort.lean ====
section
/-! DEFINITION. The command port: what each host move does (30_encoding.md R74, R82, R83; 70_reset_and_hazards.md R270,
R271; 45_host_driver.md R222), with the parameter TABLES as an argument. Step.lean calls `stepOn` at the model's
tables. -/

namespace Sys2Proof.Machine

/-- Acceptance samples the operand (R83). -/
def sample (wdata : Block) (s : State) : State := { s with wdata := wdata }

/-- An accepted word runs to its response: the command it selects, or ILLCMD (R74, R76). The response is left pending. -/
def issueOn (T : Tables) (cmd : CmdWord) (wdata : Block) (s : State) : Result :=
  match decode cmd with
  | .ok i => execOn T i (sample wdata s)
  | .error _ => .next (raise .illcmd (sample wdata s))

/-- `issueOn` at the model's tables. -/
def issue (cmd : CmdWord) (wdata : Block) (s : State) : Result := issueOn tables cmd wdata s

/-- The first micro-step of a command at micro-step grain (R9): KS_INIT or BC_INIT where the command has a sequence and
its check passes; every other command, and every failing one, has no micro-step and responds at once (R246, R276). -/
def beginInstr (T : Tables) (i : Instr) (s : State) : Result :=
  match i with
  | .nop => execOn T .nop s
  | .ldkey => execOn T .ldkey s
  | .kexp => if s.eng.kl then .next { s with eng := ksInit T s.eng } else .next (raise .nokey s)
  | .enc => if s.eng.kv then .next { s with eng := bcInit T s.wdata .enc s.eng } else .next (raise .nosched s)
  | .dec => if s.eng.kv then .next { s with eng := bcInit T s.wdata .dec s.eng } else .next (raise .nosched s)
  | .rdrk idx => execOn T (.rdrk idx) s
  | .rdtl idx => execOn T (.rdtl idx) s
  | .rdtr idx => execOn T (.rdtr idx) s
  | .rdtf idx => execOn T (.rdtf idx) s
  | .rdst => execOn T .rdst s
  | .clr => execOn T .clr s

/-- An accepted word at micro-step grain (R9, R74). -/
def beginWord (T : Tables) (cmd : CmdWord) (wdata : Block) (s : State) : Result :=
  match decode cmd with
  | .ok i => beginInstr T i (sample wdata s)
  | .error _ => .next (raise .illcmd (sample wdata s))

/-- Reset (R270, R271): every engine element takes its reset value, in any phase; a command in progress and a pending
response are gone (assumption log 7). -/
def resetPort (s : State) : State := { clearEngine s with rsp := none }

/-- The host's next move while the engine is idle. A word presented while a response is pending is not accepted: the
host takes that response first and presents the word again (R82, R83, R222; assumption log 6). -/
def idleMove (T : Tables) (s : State) : Result :=
  match s.moves with
  | [] => .next s
  | .command cmd wdata :: ms =>
    if s.rsp.isSome then .next (takeResponse s)
    else mapNext takeResponse (issueOn T cmd wdata { s with moves := ms })
  | .start cmd wdata :: ms =>
    if s.rsp.isSome then .next (takeResponse s)
    else beginWord T cmd wdata { s with moves := ms }
  | .take :: ms => .next (takeResponse { s with moves := ms })
  | .wait :: ms => .next { s with moves := ms }
  | .reset :: ms => .next (resetPort { s with moves := ms })

/-- The host's next move while a sequence runs: no word is accepted and no response is there (R83), so the sequencer
makes one micro-step; only a `wait` is used up, and only reset cuts the sequence short (R271). -/
def busyMove (T : Tables) (s : State) : Result :=
  match s.moves with
  | [] => microStep T s
  | .command _ _ :: _ => microStep T s
  | .start _ _ :: _ => microStep T s
  | .take :: _ => microStep T s
  | .wait :: ms => microStep T { s with moves := ms }
  | .reset :: ms => .next (resetPort { s with moves := ms })

/-- One step of the machine, with the parameter TABLES as an argument (00_scope.md R8, 10_state.md R21). -/
def stepOn (T : Tables) (s : State) : Result :=
  match s.eng.phase with
  | .idle => idleMove T s
  | .ks => busyMove T s
  | .bc => busyMove T s

/-- The host move that carries an instruction given as a number numbered as opcode_table.json numbers it: the low 16
bits are CMD, the bits above are the operand (zero when `nbits` is 16; assumption log 21). -/
def fetchMove (nbits w : Nat) : HostMove :=
  .command (BitVec.ofNat 16 (w % 2 ^ nbits)) (BitVec.ofNat 64 (w % 2 ^ nbits / 2 ^ 16))

end Sys2Proof.Machine
end

