-- ==== Sys2Proof/Machine/Step.lean ====
section
/-! DEFINITION. One step of the machine, and where it fetches: the engine fetches nothing (20_memory.md R54), it takes
the host's next move. -/

namespace Sys2Proof.Machine

/-- One step: the host's next move, or one micro-step of the command in progress. It is `stepOn` at the model's tables
(assumption log 2); `stepOn` itself is the step for every TABLES. -/
def step (s : State) : Host.Outcome State Fault Refusal := Sys2Proof.Machine.stepOn Sys2Proof.Machine.tables s

/-- `s` with the given command as the host's next move and the port ready for it (PHASE idle, no response pending:
`cmd_ready`, R82), so that the very next step accepts and runs it. -/
def State.withFetchWord (s : State) (nbits w : Nat) : State :=
  { s with
    eng := { s.eng with phase := .idle }
    rsp := none
    moves := Sys2Proof.Machine.fetchMove nbits w :: s.moves }

end Sys2Proof.Machine
end

