-- ==== Sys2Proof/Machine/Codec.lean ====
section
/-! DEFINITION. The host's Codec: software, not hardware (00_scope.md R4). The bit and byte order in which text, secrets
and hexadecimal strings reach the 64-bit port (20_memory.md R51 to R53; 45_host_driver.md R211 to R218). Text is a list
of characters. The UTF-8 code itself is PRESUMED (assumption log 12). -/

namespace Sys2Proof.Machine

/-- A byte from its value, 0..255. -/
abbrev byteOf (n : Nat) : Byte := BitVec.ofNat 8 n

/-- The UTF-8 bytes of one character, by its code point (R213; PRESUMED, assumption log 12). -/
def utf8Char (ch : Char) : List Byte :=
  let n := ch.toNat
  if n < 0x80 then [byteOf n]
  else if n < 0x800 then [byteOf (0xC0 + n / 64), byteOf (0x80 + n % 64)]
  else if n < 0x10000 then [byteOf (0xE0 + n / 4096), byteOf (0x80 + n / 64 % 64), byteOf (0x80 + n % 64)]
  else [byteOf (0xF0 + n / 262144), byteOf (0x80 + n / 4096 % 64), byteOf (0x80 + n / 64 % 64), byteOf (0x80 + n % 64)]

/-- The UTF-8 bytes of a text (R213). -/
def utf8Encode (text : List Char) : List Byte := text.flatMap utf8Char

/-- The payload of a UTF-8 continuation byte, 0x80 to 0xBF. -/
def continuation (b : Byte) : Option Nat :=
  if 0x80 ≤ b.toNat ∧ b.toNat < 0xC0 then some (b.toNat - 0x80) else none

/-- The character with a code point that needs at least `low`: shorter forms and surrogates are refused. -/
def charFrom (low n : Nat) : Option Char :=
  if h : low ≤ n ∧ n.isValidChar then some (Char.ofNatAux n h.2) else none

/-- The first character of a UTF-8 byte list and the bytes after it (R218; PRESUMED, assumption log 12). -/
def utf8Next : List Byte → Option (Char × List Byte)
  | [] => none
  | b0 :: rest =>
    let n0 := b0.toNat
    if n0 < 0x80 then (charFrom 0 n0).map (·, rest)
    else if n0 < 0xC0 then none
    else if n0 < 0xE0 then
      match rest with
      | b1 :: rest => do
        let n1 ← continuation b1
        let ch ← charFrom 0x80 ((n0 - 0xC0) * 64 + n1)
        return (ch, rest)
      | _ => none
    else if n0 < 0xF0 then
      match rest with
      | b1 :: b2 :: rest => do
        let n1 ← continuation b1
        let n2 ← continuation b2
        let ch ← charFrom 0x800 ((n0 - 0xE0) * 4096 + n1 * 64 + n2)
        return (ch, rest)
      | _ => none
    else
      match rest with
      | b1 :: b2 :: b3 :: rest => do
        let n1 ← continuation b1
        let n2 ← continuation b2
        let n3 ← continuation b3
        let ch ← charFrom 0x10000 ((n0 - 0xF0) * 262144 + n1 * 4096 + n2 * 64 + n3)
        return (ch, rest)
      | _ => none

/-- UTF-8 decoding with fuel: at most one character a unit. -/
def utf8DecodeFuel : Nat → List Byte → Option (List Char)
  | _, [] => some []
  | 0, _ :: _ => none
  | fuel + 1, b :: bs => do
    let (ch, rest) ← utf8Next (b :: bs)
    let chs ← utf8DecodeFuel fuel rest
    return ch :: chs

/-- The text a byte list encodes, or `none` where it is not valid UTF-8 (R218). Every character takes at least one byte,
so the length of the list is fuel enough. -/
def utf8Decode (bs : List Byte) : Option (List Char) := utf8DecodeFuel bs.length bs

/-- The bits of a value, source bit 1 first (00_scope.md R11). -/
def bitsOf {n : Nat} (v : BitVec n) : List Bool := (List.range n).map fun i => srcBit v (i + 1)

/-- `textToBits`: the bytes in order, each most significant bit first (R213). -/
def textToBits (text : List Char) : List Bool := (utf8Encode text).flatMap bitsOf

/-- The value of `n` bits from position `pos` on, the first as source bit 1 (R51). Beyond the end of the
list, where no caller reads, it takes zero bits (DESIGN CHOICE, assumption log 23). -/
def bitsAt (n : Nat) (bits : List Bool) (pos : Nat) : BitVec n := ofSrcBits n fun j => bits.getD (pos + j) false

/-- A bit list of whole groups of `n`, cut into values in order (R214, R216, R218). Bits that fill no whole
group, which no caller has, are dropped (DESIGN CHOICE, assumption log 23). -/
def cutBits (n : Nat) (bits : List Bool) : List (BitVec n) :=
  (List.range (bits.length / n)).map fun m => bitsAt n bits (n * m)

/-- Zero bits missing to the next multiple of 64. -/
def missing64 (len : Nat) : Nat := (64 - len % 64) % 64

/-- Zero-pad on the right to a multiple of 64; the empty sequence gives one block of zeros (R214, 90_conflicts.md C1). -/
def padRight (bits : List Bool) : List Bool :=
  if bits.isEmpty then List.replicate 64 false else bits ++ List.replicate (missing64 bits.length) false

/-- The blocks of a plaintext (R213, R214). -/
def textBlocks (text : List Char) : List Block := cutBits 64 (padRight (textToBits text))

/-- `NormalizeSecret`: exactly 8 bytes, extra bytes dropped, zero bytes appended (R211). -/
def normalizeSecret (s : List Byte) : List Byte := (s ++ List.replicate 8 0#8).take 8

/-- Eight bytes as a 64-bit value, the first most significant (R51, R52). -/
def packBytes (bs : List Byte) : Block := bitsAt 64 (bs.flatMap bitsOf) 0

/-- The `KEY` of a secret given as text (R211, R212). -/
def keyOfSecret (secret : List Char) : Block := packBytes (normalizeSecret (utf8Encode secret))

/-- The upper-case hexadecimal digit of a 4-bit value (R215). -/
def hexDigit (v : BitVec 4) : Char :=
  if v.toNat < 10 then Char.ofNat (0x30 + v.toNat) else Char.ofNat (0x41 + (v.toNat - 10))

/-- `bitsToHex`: exactly `len(bits)/4` digits, leading zeros kept (R215, R53). -/
def bitsToHex (bits : List Bool) : List Char := (cutBits 4 bits).map hexDigit

/-- The value of a hexadecimal digit of either case (R216, R217). -/
def hexValue (ch : Char) : Option (BitVec 4) :=
  let n := ch.toNat
  if 0x30 ≤ n ∧ n ≤ 0x39 then some (BitVec.ofNat 4 (n - 0x30))
  else if 0x41 ≤ n ∧ n ≤ 0x46 then some (BitVec.ofNat 4 (n - 0x41 + 10))
  else if 0x61 ≤ n ∧ n ≤ 0x66 then some (BitVec.ofNat 4 (n - 0x61 + 10))
  else none

/-- Leading and trailing characters of the set `ws` removed (R217, R218). -/
def strip (ws : Char → Bool) (text : List Char) : List Char :=
  ((text.dropWhile ws).reverse.dropWhile ws).reverse

/-- `hexToBits`: four bits a digit, zero bits put in front to a multiple of 64 (R216). A malformed string (no digit, an
odd number of digits, another character) is a fatal input error, `none` (R217; 90_conflicts.md C7; assumption log 14). -/
def hexToBits (ws : Char → Bool) (hex : List Char) : Option (List Bool) :=
  let digits := strip ws hex
  if digits.isEmpty ∨ digits.length % 2 = 1 then none
  else do
    let vs ← digits.mapM hexValue
    let bits := vs.flatMap bitsOf
    return List.replicate (missing64 bits.length) false ++ bits

/-- Trailing U+0000 characters removed (R218). -/
def stripNul (text : List Char) : List Char := (text.reverse.dropWhile fun ch => ch.toNat == 0).reverse

/-- `bitsToText`: bytes, UTF-8, then trailing NUL and surrounding `ws` removed; `none` where the bytes are no UTF-8,
which is a decode failure and not an empty string (R218). -/
def bitsToText (ws : Char → Bool) (bits : List Bool) : Option (List Char) :=
  (utf8Decode (cutBits 8 bits)).map fun text => strip ws (stripNul text)

/-- The default of the parameter `WS`: every character with code point at most U+0020 (R218; PRESUMED, assumption log
13). -/
def defaultWs (ch : Char) : Bool := decide (ch.toNat ≤ 0x20)

end Sys2Proof.Machine
end

