-- ==== Sys2Proof/Machine/Assembly.lean ====
section
/-! DEFINITION. The listing syntax of commands (30_encoding.md R80): `MNEMONIC`, `MNEMONIC 0x<16 hex digits>` or
`MNEMONIC <decimal idx>`, mnemonics in upper case, and the word and operand a line assembles to. -/

namespace Sys2Proof.Machine

/-- The operand of a line: its operand text is absent, a 64-bit value or an index (R80). -/
inductive LineOperand where
  | none
  | word (w : Block)
  | index (idx : Nat)
  deriving DecidableEq, Repr

/-- The operand text of a command: LDKEY, ENC and DEC show WDATA, the format X commands show idx (R80). -/
def lineOperand (i : Instr) (wdata : Block) : LineOperand :=
  match i with
  | .nop => .none
  | .ldkey => .word wdata
  | .kexp => .none
  | .enc => .word wdata
  | .dec => .word wdata
  | .rdrk idx => .index idx
  | .rdtl idx => .index idx
  | .rdtr idx => .index idx
  | .rdtf idx => .index idx
  | .rdst => .none
  | .clr => .none

/-- A decimal numeral of at most two digits. -/
def decimal (n : Nat) : List Char :=
  if n < 10 then [Char.ofNat (0x30 + n)] else [Char.ofNat (0x30 + n / 10), Char.ofNat (0x30 + n % 10)]

/-- The text of an operand: 64-bit values with `WDATA<1>` in the leftmost digit (R80). -/
def LineOperand.text : LineOperand → List Char
  | .none => []
  | .word w => [' ', '0', 'x'] ++ bitsToHex (bitsOf w)
  | .index idx => ' ' :: decimal idx

/-- The mnemonic as characters, upper case (R80). -/
def mnemonicText : Instr → List Char
  | .nop => ['N', 'O', 'P']
  | .ldkey => ['L', 'D', 'K', 'E', 'Y']
  | .kexp => ['K', 'E', 'X', 'P']
  | .enc => ['E', 'N', 'C']
  | .dec => ['D', 'E', 'C']
  | .rdrk _ => ['R', 'D', 'R', 'K']
  | .rdtl _ => ['R', 'D', 'T', 'L']
  | .rdtr _ => ['R', 'D', 'T', 'R']
  | .rdtf _ => ['R', 'D', 'T', 'F']
  | .rdst => ['R', 'D', 'S', 'T']
  | .clr => ['C', 'L', 'R']

/-- The line of a command (R80). -/
def listingLine (i : Instr) (wdata : Block) : List Char := mnemonicText i ++ (lineOperand i wdata).text

/-- The name of a status (60_exceptions.md R241, R78). -/
def statusText : Status → List Char
  | .ok => ['O', 'K']
  | .fail .illcmd => ['I', 'L', 'L', 'C', 'M', 'D']
  | .fail .badidx => ['B', 'A', 'D', 'I', 'D', 'X']
  | .fail .nokey => ['N', 'O', 'K', 'E', 'Y']
  | .fail .nosched => ['N', 'O', 'S', 'C', 'H', 'E', 'D']
  | .fail .notrace => ['N', 'O', 'T', 'R', 'A', 'C', 'E']

/-- The line of a command with its response, `-> STAT, RDATA` (R80). -/
def responseLine (i : Instr) (wdata : Block) (r : Response) : List Char :=
  listingLine i wdata ++ [' ', '-', '>', ' '] ++ statusText r.stat ++ [',', ' ', '0', 'x'] ++ bitsToHex (bitsOf r.rdata)

/-- The words a line puts on the port: CMD and WDATA, the latter 0 for commands that ignore it (R80). -/
def linePort (i : Instr) (wdata : Block) : CmdWord × Block :=
  match lineOperand i wdata with
  | .none => (encode i, 0#64)
  | .word w => (encode i, w)
  | .index _ => (encode i, 0#64)

/-- The value of a decimal digit. -/
def digitValue (ch : Char) : Option Nat :=
  if 0x30 ≤ ch.toNat ∧ ch.toNat ≤ 0x39 then some (ch.toNat - 0x30) else none

/-- An index operand: a decimal number 0..31, one or two digits (R72, R80). -/
def readIndex (text : List Char) : Option Nat :=
  match text with
  | [a] => digitValue a
  | [a, b] => do
    let m ← digitValue a
    let n ← digitValue b
    if 10 * m + n ≤ 31 then return 10 * m + n else none
  | _ => none

/-- A 64-bit operand: `0x` and sixteen hexadecimal digits (R80). -/
def readWord (text : List Char) : Option Block :=
  match text with
  | '0' :: 'x' :: digits =>
    if digits.length = 16 then (digits.mapM hexValue).map fun vs => bitsAt 64 (vs.flatMap bitsOf) 0 else none
  | _ => none

/-- What a line assembles to: CMD and WDATA, or `none` where it is no line of R80. -/
def assemble (line : List Char) : Option (CmdWord × Block) :=
  let mnemonic := line.takeWhile (· != ' ')
  let operand := (line.dropWhile (· != ' ')).drop 1
  let bare := fun i : Instr => if line = mnemonic then some (encode i, 0#64) else none
  let word := fun i : Instr => (readWord operand).map fun w => (encode i, w)
  let index := fun mk : Nat → Instr => (readIndex operand).map fun idx => (encode (mk idx), 0#64)
  if mnemonic = mnemonicText .nop then bare .nop
  else if mnemonic = mnemonicText .ldkey then word .ldkey
  else if mnemonic = mnemonicText .kexp then bare .kexp
  else if mnemonic = mnemonicText .enc then word .enc
  else if mnemonic = mnemonicText .dec then word .dec
  else if mnemonic = mnemonicText (.rdrk 0) then index .rdrk
  else if mnemonic = mnemonicText (.rdtl 0) then index .rdtl
  else if mnemonic = mnemonicText (.rdtr 0) then index .rdtr
  else if mnemonic = mnemonicText (.rdtf 0) then index .rdtf
  else if mnemonic = mnemonicText .rdst then bare .rdst
  else if mnemonic = mnemonicText .clr then bare .clr
  else none

end Sys2Proof.Machine
end

