-- ==== Sys2Proof/Machine/HostDriver.lean ====
section
/-! DEFINITION. The host's CipherEngine: software that drives the engine through its command port (45_host_driver.md R212,
R219 to R223; the pseudo-commands of 30_encoding.md R81). Nothing here is hardware (00_scope.md R4). The
engine it drives is the one over the tables `T`. -/

namespace Sys2Proof.Machine

/-- The host move that issues a command with an operand. -/
def issueMove (i : Instr) (wdata : Block) : HostMove := .command (encode i) wdata

/-- `SETKEY k`: LDKEY k, then KEXP (R81, R212). -/
def setKey (k : Block) : List HostMove := [issueMove .ldkey k, issueMove .kexp 0#64]

/-- `ENCMSG b1, ..., bn` (R81). -/
def encMsg (bs : List Block) : List HostMove := bs.map fun b => issueMove .enc b

/-- `DECMSG b1, ..., bn` (R81). -/
def decMsg (bs : List Block) : List HostMove := bs.map fun b => issueMove .dec b

/-- What the trace collaborator reads after a block: the post-IP halves, then per round f's output, L and R (R223). -/
def traceListing : List HostMove :=
  [issueMove (.rdtl 0) 0#64, issueMove (.rdtr 0) 0#64] ++
    (List.range 16).flatMap fun n =>
      [issueMove (.rdtf (n + 1)) 0#64, issueMove (.rdtl (n + 1)) 0#64, issueMove (.rdtr (n + 1)) 0#64]

/-- What it reads of the round keys (R223). -/
def roundKeyListing : List HostMove := (List.range 16).map fun n => issueMove (.rdrk (n + 1)) 0#64

/-- `n` steps of the machine, stopping at the first stop. -/
def runSteps (T : Tables) : Nat → State → Result
  | 0, s => .next s
  | n + 1, s =>
    match stepOn T s with
    | .next t => runSteps T n t
    | .fault f => .fault f
    | .refused r => .refused r

/-- The host makes the given moves, one step each, on an engine that no one else is using: the state after them and the
responses it has taken on the way; `none` where the machine stops. A call that begins with a response pending or a sequence
running, which R219 and R222 exclude, still makes exactly one step a move: an old response may be read as the first of the
new ones, and the last moves may be left unmade (DESIGN CHOICE, assumption log 24). -/
def converse (T : Tables) (s : State) (ms : List HostMove) : Option (State × List Response) :=
  match runSteps T ms.length { s with moves := ms } with
  | .next t => some (t, t.taken.drop s.taken.length)
  | .fault _ => none
  | .refused _ => none

/-- The read data of responses that are all OK. -/
def okData : List Response → Option (List Block)
  | [] => some []
  | r :: rs => if r.stat = .ok then (okData rs).map (r.rdata :: ·) else none

/-- How a call of the host software ends (93_implementation_defined.md U6; assumption log 14). -/
inductive Reply where
  /-- A text or a hexadecimal string. -/
  | text (t : List Char)
  /-- The ciphertext is malformed: a fatal input error, found before any command (R217). -/
  | inputError
  /-- The decrypted bytes are no UTF-8 (R218). -/
  | decodeFailure
  /-- The engine stopped or failed a command; R219 and R220 never provoke it (R221). -/
  | engineFailure
  deriving DecidableEq, Repr

/-- Set the key, send one message of block commands, and hand the output blocks on: the common part of `encrypt` and
`decrypt` (R219, R220). On an engine that is not ready the blocks may be shifted or missing (DESIGN CHOICE, assumption log
24). -/
def sendMessage (T : Tables) (s : State) (k : Block) (ms : List HostMove) : Option (State × List Block) := do
  let (t, rs) ← converse T s (setKey k ++ ms)
  let outs ← okData rs
  return (t, outs.drop 2)

/-- `encrypt(plaintext, secret)` on the machine `s` (R219), which is to be idle with no response pending; the answer on
another machine, and the state `s` given back with `engineFailure`, are the model's choice (DESIGN CHOICE, assumption log
24). -/
def encrypt (T : Tables) (s : State) (plaintext secret : List Char) : State × Reply :=
  match sendMessage T s (keyOfSecret secret) (encMsg (textBlocks plaintext)) with
  | some (t, outs) => (t, .text (bitsToHex (outs.flatMap bitsOf)))
  | none => (s, .engineFailure)

/-- `decrypt(ciphertextHex, secret)` on the machine `s` (R220): a malformed string is refused before any command. A machine
that is not idle, or has a response pending, is answered as in `encrypt` (DESIGN CHOICE, assumption log 24). -/
def decrypt (T : Tables) (ws : Char → Bool) (s : State) (hex secret : List Char) : State × Reply :=
  match hexToBits ws hex with
  | none => (s, .inputError)
  | some bits =>
    match sendMessage T s (keyOfSecret secret) (decMsg (cutBits 64 bits)) with
    | some (t, outs) =>
      match bitsToText ws (outs.flatMap bitsOf) with
      | some text => (t, .text text)
      | none => (t, .decodeFailure)
    | none => (s, .engineFailure)

end Sys2Proof.Machine
end

