-- ==== Sys2Proof/Safety.lean ====
section
/-! DEFINITION. What a safe run keeps: the invariants of 10_state.md R29, R32 and R35 and of 44_control.md R201, with what
they need while a sequence runs, as one property of a state that every step keeps; and what the safe states promise. -/

namespace Sys2Proof.Machine

/-- The trace of one block, up to round `n` (R35, R182): `B` is the operand and `rks` the round keys it runs with. -/
structure TraceUpTo (T : Tables) (e : Engine) (B : Block) (rks : RoundKeySet) (n : Nat) : Prop where
  start   : e.tl[0] ++ e.tr[0] = permute (m := 64) B T.ip
  left    : ∀ i : Fin 16, i.val < n → e.tl[i.val + 1] = e.tr[i.val]
  fOutput : ∀ i : Fin 16, i.val < n → e.tf[i] = roundF T e.tr[i.val] (roundKeyFor e.dir rks i)
  right   : ∀ i : Fin 16, i.val < n → e.tr[i.val + 1] = e.tl[i.val] ^^^ e.tf[i]

/-- The trace of a completed block, its output and the working halves it leaves (R35). -/
structure TraceOf (T : Tables) (e : Engine) (B : Block) (rks : RoundKeySet) : Prop where
  rounds : TraceUpTo T e B rks 16
  output : e.dout = permute (m := 64) (e.tr[16] ++ e.tl[16]) T.fp
  leftHalf  : e.l = e.tl[16]
  rightHalf : e.r = e.tr[16]

/-- The invariant of the engine's state. `atRest` marks what holds when no sequence of that kind runs. -/
structure EngineInv (T : Tables) (e : Engine) : Prop where
  /-- KV = 1 implies KL = 1 (R32, R201). -/
  valid_loaded : e.kv = true → e.kl = true
  /-- TV = 1 implies KL = 1 (R201). -/
  trace_loaded : e.tv = true → e.kl = true
  /-- DIR = 1 implies TV = 1, except inside the very sequence that sets both (R201). -/
  dec_traced : e.phase ≠ .bc → e.dir = .dec → e.tv = true
  /-- KV = 1 implies RK = KS(KEY) (R32). -/
  keys : e.kv = true → e.rk = ks T e.key
  /-- RND is 0 or 16 whenever a command can be accepted (R29). -/
  idle_round : e.phase = .idle → e.rnd = 0#5 ∨ e.rnd = 16#5
  /-- While the key sequence runs: RND < 16, a key is loaded, C and D are the halves after RND rounds, and the round
  keys of those rounds stand in RK (R133, R134). -/
  ks_running : e.phase = .ks → e.rnd.toNat < 16 ∧ e.kl = true ∧ (e.c, e.d) = ksHalves T e.key e.rnd.toNat ∧
    ∀ i : Fin 16, i.val < e.rnd.toNat → e.rk[i] = (ks T e.key)[i]
  /-- While the block sequence runs: RND ≤ 16, the round keys are valid, the trace of this block stands up to RND, and
  L and R are its newest halves (R172, R173). -/
  bc_running : e.phase = .bc → e.rnd.toNat ≤ 16 ∧ e.kv = true ∧ (∃ B, TraceUpTo T e B e.rk e.rnd.toNat) ∧
    e.tl[e.rnd.toNat]? = some e.l ∧ e.tr[e.rnd.toNat]? = some e.r
  /-- TV = 1 outside the block sequence: the trace is that of one block under the schedule of one key, which need not be
  the present KEY or RK (R35; the round keys it ran with were valid then, R32). -/
  trace : e.phase ≠ .bc → e.tv = true → ∃ B k, TraceOf T e B (ks T k)

/-- A failed response carries zero data (30_encoding.md R77). -/
def ResponseInv (r : Response) : Prop := r.stat ≠ .ok → r.rdata = 0#64

/-- The invariant of the whole state, over the tables the machine runs on: the engine's, no response pending while a
sequence runs (30_encoding.md R83), and every response ever given well formed (R77). -/
structure State.Inv (T : Tables) (s : State) : Prop where
  engine    : EngineInv T s.eng
  busy      : s.eng.phase ≠ .idle → s.rsp = none
  pending   : ∀ r, s.rsp = some r → ResponseInv r
  responses : ∀ r ∈ s.taken, ResponseInv r

/-- The step does not stop in this state. -/
def Proceeds (T : Tables) (s : State) : Prop := ∃ t, stepOn T s = .next t

end Sys2Proof.Machine
end

