-- ==== Sys2Proof/Certificates/Slice0/Obligations.lean ====
section
/-! DEFINITION. The statements about the engine, in the order of the spec's files. Each docstring names the rules it
formalises. `execOn T` and `stepOn T` are the command set and the step over any TABLES; `exec` and `step` are theirs at the
tables the model runs on (`tables`, assumption log 2; StepRunsTheDecodedCommand says so), which a statement about them
names only as an argument of Permute, KS, f and BlockFn. -/

open Sys2Proof Sys2Proof.Machine

/-! ### Encoding (30_encoding.md) -/

/-- R71, R72, R75: no bit of an encoding is dropped. -/
def Obligations.DecodeAfterEncode : Prop :=
  ∀ i : Instr, i.wellFormed = true → decode (encode i) = .ok i

/-- R70, R71, R72: a word that decodes is the word of the well-formed command it decodes to, so no two words have one
meaning and no bit of a legal word is ignored (R76). -/
def Obligations.EncodeAfterDecode : Prop :=
  ∀ (w : CmdWord) (i : Instr), decode w = .ok i → i.wellFormed = true ∧ encode i = w

/-- R75: the complete command set as match and mask, with idx = CMD[8:4] (R84). -/
def Obligations.DecodeIsTheOpcodeMap : Prop :=
  ∀ w : CmdWord,
    (decode w = .ok .nop ↔ w &&& 0xFFFF#16 = 0x0000#16) ∧
    (decode w = .ok .ldkey ↔ w &&& 0xFFFF#16 = 0x0001#16) ∧
    (decode w = .ok .kexp ↔ w &&& 0xFFFF#16 = 0x0002#16) ∧
    (decode w = .ok .enc ↔ w &&& 0xFFFF#16 = 0x0003#16) ∧
    (decode w = .ok .dec ↔ w &&& 0xFFFF#16 = 0x0004#16) ∧
    (∀ idx, decode w = .ok (.rdrk idx) ↔ w &&& 0xFE0F#16 = 0x0005#16 ∧ idx = (w.extractLsb' 4 5).toNat) ∧
    (∀ idx, decode w = .ok (.rdtl idx) ↔ w &&& 0xFE0F#16 = 0x0006#16 ∧ idx = (w.extractLsb' 4 5).toNat) ∧
    (∀ idx, decode w = .ok (.rdtr idx) ↔ w &&& 0xFE0F#16 = 0x0007#16 ∧ idx = (w.extractLsb' 4 5).toNat) ∧
    (∀ idx, decode w = .ok (.rdtf idx) ↔ w &&& 0xFE0F#16 = 0x0008#16 ∧ idx = (w.extractLsb' 4 5).toNat) ∧
    (decode w = .ok .rdst ↔ w &&& 0xFFFF#16 = 0x0009#16) ∧
    (decode w = .ok .clr ↔ w &&& 0xFFFF#16 = 0x000A#16)

/-- R76: a word is illegal in exactly the three cases; it fails with ILLCMD and changes nothing but ERR[0]; exactly 135
words are legal (so 65401 are not); only 0x0000 is a no-op. The sampled operand `wdata` is a port, not engine state. -/
def Obligations.IllegalWords : Prop :=
  (∀ w : CmdWord, (∃ why, decode w = .error why) ↔
    (0xB ≤ (w.extractLsb' 0 4).toNat) ∨
    ((w.extractLsb' 0 4).toNat ∈ [0x0, 0x1, 0x2, 0x3, 0x4, 0x9, 0xA] ∧ w.extractLsb' 4 12 ≠ 0#12) ∨
    ((w.extractLsb' 0 4).toNat ∈ [0x5, 0x6, 0x7, 0x8] ∧ w.extractLsb' 9 7 ≠ 0#7)) ∧
  (∀ (w : CmdWord) (why : IllegalWord) (d : Block) (s : State), decode w = .error why →
    issue w d s = .next { s with
      eng := { s.eng with err := s.eng.err ||| 0b00001#5 }, wdata := d, rsp := some ⟨.fail .illcmd, 0#64⟩ }) ∧
  (∃ ws : List CmdWord, ws.length = 135 ∧ ws.Nodup ∧ ∀ w : CmdWord, (∃ i, decode w = .ok i) ↔ w ∈ ws) ∧
  (∀ w : CmdWord, decode w = .ok .nop ↔ w = 0x0000#16)

/-- 95_test_vectors.md 2.6: words written out from the spec's encodings. -/
def Obligations.SampleWordsDecode : Prop :=
  decode 0b0000000000000001#16 = .ok .ldkey ∧
  decode 0b0000000000000011#16 = .ok .enc ∧
  decode 0b0000000000010101#16 = .ok (.rdrk 1) ∧
  decode 0b0000000111110101#16 = .ok (.rdrk 31) ∧
  decode 0b0000000100000111#16 = .ok (.rdtr 16) ∧
  decode 0b0000000000001001#16 = .ok .rdst ∧
  decode 0b0000000000011010#16 = .error .upperBitsN ∧
  decode 0b0000001000000101#16 = .error .upperBitsX ∧
  decode 0b0000000000001011#16 = .error .reservedOpcode

/-- R80: a listing line assembles to the word of its command and the operand it shows. -/
def Obligations.AssembleListing : Prop :=
  ∀ (i : Instr) (wdata : Block), i.wellFormed = true → assemble (listingLine i wdata) = some (linePort i wdata)

/-! ### Commands (41, 43, 44): each statement's conclusion is the next state, so it is completion, result and frame -/

/-- R200: NOP. -/
def Obligations.NopEffect : Prop :=
  decode 0x0000#16 = .ok .nop ∧ (∀ w : CmdWord, decode w = .ok .nop → w = 0x0000#16) ∧
  ∀ s : State, exec .nop s = .next { s with rsp := some ⟨.ok, 0#64⟩ }

/-- R131: LDKEY, for every operand and in every state. -/
def Obligations.LdkeyEffect : Prop :=
  decode 0x0001#16 = .ok .ldkey ∧ (∀ w : CmdWord, decode w = .ok .ldkey → w = 0x0001#16) ∧
  ∀ s : State, exec .ldkey s = .next { s with
    eng := { s.eng with key := s.wdata, kl := true, kv := false }, rsp := some ⟨.ok, 0#64⟩ }

/-- R132: KEXP, its net effect with a loaded key and its failure without one; the last clause is the same over every
TABLES. -/
def Obligations.KexpEffect : Prop :=
  let done := fun (T : Tables) (s : State) => { s with
    eng := { s.eng with
      rk := ks T s.eng.key
      c := (ksHalves T s.eng.key 16).1
      d := (ksHalves T s.eng.key 16).2
      kv := true
      phase := .idle
      rnd := 16#5 }
    rsp := some ⟨.ok, 0#64⟩ }
  let failed := fun (s : State) => { s with
    eng := { s.eng with err := s.eng.err ||| 0b00100#5 }, rsp := some ⟨.fail .nokey, 0#64⟩ }
  decode 0x0002#16 = .ok .kexp ∧ (∀ w : CmdWord, decode w = .ok .kexp → w = 0x0002#16) ∧
  (∀ s : State, s.eng.kl = true → exec .kexp s = .next (done tables s)) ∧
  (∀ s : State, s.eng.kl = false → exec .kexp s = .next (failed s)) ∧
  (∀ (T : Tables) (s : State), execOn T .kexp s = .next (if s.eng.kl then done T s else failed s))

/-- R135: RDRK, every index and every state. -/
def Obligations.RdrkEffect : Prop :=
  (∀ idx : Nat, idx ≤ 31 → decode (0x0005#16 ||| (BitVec.ofNat 16 idx <<< 4)) = .ok (.rdrk idx)) ∧
  (∀ (s : State) (i : Fin 16), s.eng.kv = true →
    exec (.rdrk (i.val + 1)) s = .next { s with rsp := some ⟨.ok, s.eng.rk[i].setWidth 64⟩ }) ∧
  (∀ (s : State) (idx : Nat), idx = 0 ∨ 17 ≤ idx → exec (.rdrk idx) s = .next { s with
    eng := { s.eng with err := s.eng.err ||| 0b00010#5 }, rsp := some ⟨.fail .badidx, 0#64⟩ }) ∧
  (∀ (s : State) (idx : Nat), 1 ≤ idx → idx ≤ 16 → s.eng.kv = false → exec (.rdrk idx) s = .next { s with
    eng := { s.eng with err := s.eng.err ||| 0b01000#5 }, rsp := some ⟨.fail .nosched, 0#64⟩ })

/-- R175: ENC, its net effect with valid round keys and its failure without them; the last clause is the same over every
TABLES. -/
def Obligations.EncEffect : Prop :=
  let done := fun (T : Tables) (s : State) => { s with
    eng := { s.eng with
      dir := .enc
      tl := Vector.ofFn fun j : Fin 17 => (blockHalves T s.wdata s.eng.rk .enc j).1
      tr := Vector.ofFn fun j : Fin 17 => (blockHalves T s.wdata s.eng.rk .enc j).2
      tf := Vector.ofFn fun i : Fin 16 => blockF T s.wdata s.eng.rk .enc i
      l := (blockHalves T s.wdata s.eng.rk .enc 16).1
      r := (blockHalves T s.wdata s.eng.rk .enc 16).2
      dout := blockFn T s.wdata s.eng.rk .enc
      tv := true
      phase := .idle
      rnd := 16#5 }
    rsp := some ⟨.ok, blockFn T s.wdata s.eng.rk .enc⟩ }
  let failed := fun (s : State) => { s with
    eng := { s.eng with err := s.eng.err ||| 0b01000#5 }, rsp := some ⟨.fail .nosched, 0#64⟩ }
  decode 0x0003#16 = .ok .enc ∧ (∀ w : CmdWord, decode w = .ok .enc → w = 0x0003#16) ∧
  (∀ s : State, s.eng.kv = true → exec .enc s = .next (done tables s)) ∧
  (∀ s : State, s.eng.kv = false → exec .enc s = .next (failed s)) ∧
  (∀ (T : Tables) (s : State), execOn T .enc s = .next (if s.eng.kv then done T s else failed s))

/-- R176: DEC, its net effect with valid round keys and its failure without them; the last clause is the same over every
TABLES. -/
def Obligations.DecEffect : Prop :=
  let done := fun (T : Tables) (s : State) => { s with
    eng := { s.eng with
      dir := .dec
      tl := Vector.ofFn fun j : Fin 17 => (blockHalves T s.wdata s.eng.rk .dec j).1
      tr := Vector.ofFn fun j : Fin 17 => (blockHalves T s.wdata s.eng.rk .dec j).2
      tf := Vector.ofFn fun i : Fin 16 => blockF T s.wdata s.eng.rk .dec i
      l := (blockHalves T s.wdata s.eng.rk .dec 16).1
      r := (blockHalves T s.wdata s.eng.rk .dec 16).2
      dout := blockFn T s.wdata s.eng.rk .dec
      tv := true
      phase := .idle
      rnd := 16#5 }
    rsp := some ⟨.ok, blockFn T s.wdata s.eng.rk .dec⟩ }
  let failed := fun (s : State) => { s with
    eng := { s.eng with err := s.eng.err ||| 0b01000#5 }, rsp := some ⟨.fail .nosched, 0#64⟩ }
  decode 0x0004#16 = .ok .dec ∧ (∀ w : CmdWord, decode w = .ok .dec → w = 0x0004#16) ∧
  (∀ s : State, s.eng.kv = true → exec .dec s = .next (done tables s)) ∧
  (∀ s : State, s.eng.kv = false → exec .dec s = .next (failed s)) ∧
  (∀ (T : Tables) (s : State), execOn T .dec s = .next (if s.eng.kv then done T s else failed s))

/-- R177: RDTL, every index and every state. -/
def Obligations.RdtlEffect : Prop :=
  (∀ idx : Nat, idx ≤ 31 → decode (0x0006#16 ||| (BitVec.ofNat 16 idx <<< 4)) = .ok (.rdtl idx)) ∧
  (∀ (s : State) (j : Fin 17), s.eng.tv = true →
    exec (.rdtl j.val) s = .next { s with rsp := some ⟨.ok, s.eng.tl[j].setWidth 64⟩ }) ∧
  (∀ (s : State) (idx : Nat), 17 ≤ idx → exec (.rdtl idx) s = .next { s with
    eng := { s.eng with err := s.eng.err ||| 0b00010#5 }, rsp := some ⟨.fail .badidx, 0#64⟩ }) ∧
  (∀ (s : State) (idx : Nat), idx ≤ 16 → s.eng.tv = false → exec (.rdtl idx) s = .next { s with
    eng := { s.eng with err := s.eng.err ||| 0b10000#5 }, rsp := some ⟨.fail .notrace, 0#64⟩ })

/-- R178: RDTR, every index and every state. -/
def Obligations.RdtrEffect : Prop :=
  (∀ idx : Nat, idx ≤ 31 → decode (0x0007#16 ||| (BitVec.ofNat 16 idx <<< 4)) = .ok (.rdtr idx)) ∧
  (∀ (s : State) (j : Fin 17), s.eng.tv = true →
    exec (.rdtr j.val) s = .next { s with rsp := some ⟨.ok, s.eng.tr[j].setWidth 64⟩ }) ∧
  (∀ (s : State) (idx : Nat), 17 ≤ idx → exec (.rdtr idx) s = .next { s with
    eng := { s.eng with err := s.eng.err ||| 0b00010#5 }, rsp := some ⟨.fail .badidx, 0#64⟩ }) ∧
  (∀ (s : State) (idx : Nat), idx ≤ 16 → s.eng.tv = false → exec (.rdtr idx) s = .next { s with
    eng := { s.eng with err := s.eng.err ||| 0b10000#5 }, rsp := some ⟨.fail .notrace, 0#64⟩ })

/-- R179: RDTF, every index and every state; there is no TF[0]. -/
def Obligations.RdtfEffect : Prop :=
  (∀ idx : Nat, idx ≤ 31 → decode (0x0008#16 ||| (BitVec.ofNat 16 idx <<< 4)) = .ok (.rdtf idx)) ∧
  (∀ (s : State) (i : Fin 16), s.eng.tv = true →
    exec (.rdtf (i.val + 1)) s = .next { s with rsp := some ⟨.ok, s.eng.tf[i].setWidth 64⟩ }) ∧
  (∀ (s : State) (idx : Nat), idx = 0 ∨ 17 ≤ idx → exec (.rdtf idx) s = .next { s with
    eng := { s.eng with err := s.eng.err ||| 0b00010#5 }, rsp := some ⟨.fail .badidx, 0#64⟩ }) ∧
  (∀ (s : State) (idx : Nat), 1 ≤ idx → idx ≤ 16 → s.eng.tv = false → exec (.rdtf idx) s = .next { s with
    eng := { s.eng with err := s.eng.err ||| 0b10000#5 }, rsp := some ⟨.fail .notrace, 0#64⟩ })

/-- R201 with R30: RDST in every state; the word bit by bit. -/
def Obligations.RdstEffect : Prop :=
  decode 0x0009#16 = .ok .rdst ∧ (∀ w : CmdWord, decode w = .ok .rdst → w = 0x0009#16) ∧
  ∀ s : State, ∃ status : Block, exec .rdst s = .next { s with rsp := some ⟨.ok, status⟩ } ∧
    status.getLsbD 0 = s.eng.kl ∧ status.getLsbD 1 = s.eng.kv ∧ status.getLsbD 2 = s.eng.tv ∧
    status.getLsbD 3 = decide (s.eng.dir = .dec) ∧
    status.extractLsb' 4 4 = 0#4 ∧ status.extractLsb' 8 5 = s.eng.err ∧ status.extractLsb' 13 51 = 0#51

/-- R202: CLR in every state; the engine is then the engine of the reset state. -/
def Obligations.ClrEffect : Prop :=
  decode 0x000A#16 = .ok .clr ∧ (∀ w : CmdWord, decode w = .ok .clr → w = 0x000A#16) ∧
  ∀ s : State, exec .clr s = .next { s with eng := State.reset.eng, rsp := some ⟨.ok, 0#64⟩ }

/-- R33: every state element holds zero after reset, "the spec's choice" as the rule itself says (D12). -/
def Obligations.ResetValues : Prop :=
  State.reset.eng.key = 0#64 ∧ (∀ i : Fin 16, State.reset.eng.rk[i] = 0#48) ∧
  State.reset.eng.c = 0#28 ∧ State.reset.eng.d = 0#28 ∧ State.reset.eng.l = 0#32 ∧ State.reset.eng.r = 0#32 ∧
  State.reset.eng.dout = 0#64 ∧
  (∀ j : Fin 17, State.reset.eng.tl[j] = 0#32) ∧ (∀ j : Fin 17, State.reset.eng.tr[j] = 0#32) ∧
  (∀ i : Fin 16, State.reset.eng.tf[i] = 0#32) ∧
  State.reset.eng.kl = false ∧ State.reset.eng.kv = false ∧ State.reset.eng.tv = false ∧
  State.reset.eng.dir.bit = 0#1 ∧ State.reset.eng.err = 0b00000#5 ∧ State.reset.eng.phase.code = 0#2 ∧
  State.reset.eng.rnd = 0#5

/-! ### Whole-command-set rules (10, 20, 60) -/

/-- R241, R242, R243: every command in every state answers a next state with a response, and its status is the first
error that applies, index before state check. -/
def Obligations.StatusOfEveryCommand : Prop :=
  ∀ (i : Instr) (s : State), ∃ (t : State) (r : Response), exec i s = .next t ∧ t.rsp = some r ∧
    r.stat.code = match i with
      | .nop | .ldkey | .rdst | .clr => 0x0#4
      | .kexp => if s.eng.kl then 0x0#4 else 0x3#4
      | .enc | .dec => if s.eng.kv then 0x0#4 else 0x4#4
      | .rdrk idx => if idx = 0 ∨ 17 ≤ idx then 0x2#4 else if s.eng.kv then 0x0#4 else 0x4#4
      | .rdtl idx | .rdtr idx => if 17 ≤ idx then 0x2#4 else if s.eng.tv then 0x0#4 else 0x5#4
      | .rdtf idx => if idx = 0 ∨ 17 ≤ idx then 0x2#4 else if s.eng.tv then 0x0#4 else 0x5#4

/-- R245: an accepted word that fails, illegal or not, sets its error's one bit of ERR, returns zero data, and changes
nothing else; `d` is the operand sampled at acceptance, a port and not engine state. The second clause says it of the
command alone. -/
def Obligations.FailureOnlySetsItsErrorBit : Prop :=
  let failed := fun (e : Error) (s : State) => { s with
    eng := { s.eng with err := s.eng.err ||| (match e with
      | .illcmd => 0b00001#5 | .badidx => 0b00010#5 | .nokey => 0b00100#5
      | .nosched => 0b01000#5 | .notrace => 0b10000#5) }
    rsp := some ⟨.fail e, 0#64⟩ }
  (∀ (w : CmdWord) (d : Block) (s t : State) (e : Error) (r : Block), issue w d s = .next t →
    t.rsp = some ⟨.fail e, r⟩ → t = failed e { s with wdata := d }) ∧
  (∀ (i : Instr) (s t : State) (e : Error) (r : Block), exec i s = .next t →
    t.rsp = some ⟨.fail e, r⟩ → t = failed e s)

/-- R34: the access matrix, write side, for every command in every state: an element with no `w` in a command's row keeps
its value, and ERR keeps its value when the command succeeds. The port's other fields never change. -/
def Obligations.AccessMatrix : Prop :=
  ∀ (i : Instr) (s t : State), exec i s = .next t →
    (i ≠ .ldkey → i ≠ .clr → t.eng.key = s.eng.key ∧ t.eng.kl = s.eng.kl) ∧
    (i ≠ .kexp → i ≠ .clr → t.eng.rk = s.eng.rk ∧ t.eng.c = s.eng.c ∧ t.eng.d = s.eng.d) ∧
    (i ≠ .enc → i ≠ .dec → i ≠ .clr → t.eng.l = s.eng.l ∧ t.eng.r = s.eng.r ∧ t.eng.dout = s.eng.dout ∧
      t.eng.tl = s.eng.tl ∧ t.eng.tr = s.eng.tr ∧ t.eng.tf = s.eng.tf ∧ t.eng.tv = s.eng.tv ∧
      t.eng.dir = s.eng.dir) ∧
    (i ≠ .ldkey → i ≠ .kexp → i ≠ .clr → t.eng.kv = s.eng.kv) ∧
    (i ≠ .kexp → i ≠ .enc → i ≠ .dec → i ≠ .clr → t.eng.phase = s.eng.phase ∧ t.eng.rnd = s.eng.rnd) ∧
    (i ≠ .clr → (∃ d, t.rsp = some ⟨.ok, d⟩) → t.eng.err = s.eng.err) ∧
    t.wdata = s.wdata ∧ t.moves = s.moves ∧ t.taken = s.taken

/-- R57: a successful read changes no engine state, and repeating it returns the same value. -/
def Obligations.ReadsHaveNoSideEffect : Prop :=
  ∀ (i : Instr) (s t : State) (d : Block), i.mnemonic ∈ ["RDRK", "RDTL", "RDTR", "RDTF", "RDST"] →
    exec i s = .next t → t.rsp = some ⟨.ok, d⟩ → t.eng = s.eng ∧ exec i t = .next t

/-- R28, R202, R248: a step that is neither a reset nor the acceptance of CLR loses no bit of ERR and clears neither KL nor
TV, micro-steps included. CLR is accepted only when the engine is idle and no response is pending (R82): a CLR presented
at another time forgets nothing. -/
def Obligations.OnlyClrAndResetForget : Prop :=
  ∀ s t : State, step s = .next t → (∀ ms, s.moves ≠ .reset :: ms) →
    (s.eng.phase = .idle → s.rsp = none →
      ∀ w d ms, s.moves = .command w d :: ms ∨ s.moves = .start w d :: ms → decode w ≠ .ok .clr) →
    s.eng.err &&& t.eng.err = s.eng.err ∧ (s.eng.kl = true → t.eng.kl = true) ∧ (s.eng.tv = true → t.eng.tv = true)

/-- R22, R61: a step that changes KEY is a reset, or accepts CLR, or accepts LDKEY, and the last leaves the operand in KEY
and the round keys invalid. -/
def Obligations.KeyChangesOnlyByLdkeyClrReset : Prop :=
  ∀ s t : State, step s = .next t → t.eng.key ≠ s.eng.key →
    (∃ ms, s.moves = .reset :: ms) ∨
    (s.eng.phase = .idle ∧ s.rsp = none ∧ ∃ w d ms, (s.moves = .command w d :: ms ∨ s.moves = .start w d :: ms) ∧
      (decode w = .ok .clr ∨ (decode w = .ok .ldkey ∧ t.eng.key = d ∧ t.eng.kv = false)))

/-- R20, R22: what the host cannot see never reaches a response: two states that agree on RK, the trace file, the flags,
ERR and the operand give every command the same response, whatever KEY, C, D, L, R, DOUT, PHASE and RND hold. -/
def Obligations.HiddenElementsReachNoResponse : Prop :=
  ∀ (i : Instr) (s s' t t' : State),
    s.wdata = s'.wdata → s.eng.rk = s'.eng.rk → s.eng.tl = s'.eng.tl → s.eng.tr = s'.eng.tr →
    s.eng.tf = s'.eng.tf → s.eng.kl = s'.eng.kl → s.eng.kv = s'.eng.kv → s.eng.tv = s'.eng.tv →
    s.eng.dir = s'.eng.dir → s.eng.err = s'.eng.err →
    exec i s = .next t → exec i s' = .next t' → t.rsp = t'.rsp

/-- R181: the response of ENC or DEC with valid round keys is a function of WDATA, RK and the command alone; equal blocks
under equal round keys give equal results, whatever else the two engines hold. -/
def Obligations.BlockIndependence : Prop :=
  ∀ (i : Instr) (s s' t t' : State), i = .enc ∨ i = .dec → s.eng.kv = true → s'.eng.kv = true →
    s.wdata = s'.wdata → s.eng.rk = s'.eng.rk → exec i s = .next t → exec i s' = .next t' → t.rsp = t'.rsp

/-! ### Primitives and tables (40) -/

/-- R100: `W<j> = V<T[j]>`, and the same function with 0-indexed entries and hardware bit numbers. -/
def Obligations.PermuteGathers : Prop :=
  ∀ (n m : Nat) (V : BitVec n) (T : Vector Nat m), InRange T n → ∀ j : Fin m,
    srcBit (permute V T) (j.val + 1) = srcBit V T[j] ∧
    (permute V T).getLsbD (m - 1 - j.val) = V.getLsbD (n - 1 - (T[j] - 1))

/-- R101: `W<i> = V<((i-1+s) mod n)+1>`, the same on the integer, and RotL(V, 0) = V. -/
def Obligations.RotLRotates : Prop :=
  ∀ (n : Nat) (V : BitVec n) (s : Nat), s < n →
    (∀ i, 1 ≤ i → i ≤ n → srcBit (rotL V s) i = srcBit V ((i - 1 + s) % n + 1)) ∧
    (rotL V s).toNat = (V.toNat <<< s ||| V.toNat >>> (n - s)) % 2 ^ n ∧ rotL V 0 = V

/-- R105: FP undoes IP and IP undoes FP, on every block, for every well-formed TABLES. -/
def Obligations.InversePermutation : Prop :=
  ∀ T : Tables, T.WellFormed → ∀ V : Block,
    permute (permute V T.ip) T.fp = V ∧ permute (permute V T.fp) T.ip = V

/-- R104: entries 1..16 of the shift schedule and the sums of entries 1..r. Entry 0, which no rule reads, has no place in
the model (assumption log 16). -/
def Obligations.ShiftSchedule : Prop :=
  (∀ i : Fin 16, shift[i] = if i.val + 1 ∈ [1, 2, 9, 16] then 1 else 2) ∧
  (∀ i : Fin 16, some (shift.toList.take (i.val + 1)).sum =
    [1, 2, 4, 6, 8, 10, 12, 14, 15, 17, 19, 21, 23, 25, 27, 28][i.val]?)

/-- R103, R120 (d): the tables the machine runs on are well formed. That they are the standard DES tables is the model's
choice among the spec's open values (assumption log 2). -/
def Obligations.MachineTablesWellFormed : Prop := tables.WellFormed

/-- R120 (a): with the default tables the bits 8, 16, ..., 64 of the key do not affect the schedule (general knowledge of
the spec, section 4; assumption log 2). -/
def Obligations.DefaultScheduleIgnoresEighthBits : Prop :=
  ∀ k k' : Block, (∀ i, 1 ≤ i → i ≤ 64 → i % 8 ≠ 0 → srcBit k i = srcBit k' i) → ks desTables k = ks desTables k'

/-! ### Key schedule (41) -/

/-- R130: the rotations accumulate: after r rounds the halves are C₀ and D₀ rotated by SHIFT[1] + ... + SHIFT[r], and the
round key is selected from them. At r = 16 the sum is 28, the full width, for which R101 gives no rotation: that instance
rests on the value the model gives RotL there, V itself (DESIGN CHOICE, assumption log 23); it agrees with R136, closure of
the rotation, which ScheduleShape states without it. -/
def Obligations.ScheduleRotationsAccumulate : Prop :=
  ∀ (T : Tables) (k : Block) (i : Fin 16),
    let total := (shift.toList.take (i.val + 1)).sum
    let C := rotL (srcSlice (permute k T.pc1) 1 28) total
    let D := rotL (srcSlice (permute k T.pc1) 29 28) total
    ksHalves T k (i.val + 1) = (C, D) ∧ (ks T k)[i] = permute (m := 48) (C ++ D) T.pc2

/-- R136: closure of the rotation; and after any successful KEXP, RDRK succeeds for exactly idx = 1..16 and returns a
value below 2^48, the same for the same key. -/
def Obligations.ScheduleShape : Prop :=
  (∀ (T : Tables) (k : Block), ksHalves T k 16 = ksHalves T k 0 ∧
    (ks T k)[15] = permute (m := 48) ((ksHalves T k 0).1 ++ (ksHalves T k 0).2) T.pc2) ∧
  (∀ (s t : State) (idx : Nat), exec .kexp s = .next t → t.rsp = some ⟨.ok, 0#64⟩ →
    ((∃ u d, exec (.rdrk idx) t = .next u ∧ u.rsp = some ⟨.ok, d⟩) ↔ 1 ≤ idx ∧ idx ≤ 16) ∧
    (∀ u d, exec (.rdrk idx) t = .next u → u.rsp = some ⟨.ok, d⟩ → d.toNat < 2 ^ 48)) ∧
  (∀ s s' t t' : State, s.eng.key = s'.eng.key → exec .kexp s = .next t → exec .kexp s' = .next t' →
    t.rsp = some ⟨.ok, 0#64⟩ → t'.rsp = some ⟨.ok, 0#64⟩ → t.eng.rk = t'.eng.rk)

/-- R133: KS_INIT, the first step of a KEXP issued at micro-step grain. -/
def Obligations.KsInitStep : Prop :=
  ∀ (s : State) (d : Block) (ms : List HostMove), s.eng.phase = .idle → s.eng.kl = true → s.rsp = none →
    s.moves = .start 0x0002#16 d :: ms →
    step s = .next { s with
      eng := { s.eng with
        c := srcSlice (permute s.eng.key tables.pc1) 1 28
        d := srcSlice (permute s.eng.key tables.pc1) 29 28
        rnd := 0#5
        phase := .ks }
      wdata := d
      moves := ms }

/-- R134: KS_ROUND, round r = i + 1, with KEXP's response at the sixteenth. -/
def Obligations.KsRoundStep : Prop :=
  ∀ (s : State) (i : Fin 16), s.eng.phase = .ks → s.eng.rnd = BitVec.ofNat 5 i.val → s.moves = [] →
    step s = .next { s with
      eng := { s.eng with
        c := rotL s.eng.c shift[i]
        d := rotL s.eng.d shift[i]
        rk := s.eng.rk.set i (permute (m := 48) (rotL s.eng.c shift[i] ++ rotL s.eng.d shift[i]) tables.pc2)
        rnd := BitVec.ofNat 5 (i.val + 1)
        kv := if i.val + 1 = 16 then true else s.eng.kv
        phase := if i.val + 1 = 16 then .idle else .ks }
      rsp := if i.val + 1 = 16 then some ⟨.ok, 0#64⟩ else s.rsp }

/-! ### Round function and block cipher (42, 43) -/

/-- R151: expansion, with its corner cases for any E. -/
def Obligations.ExpansionStep : Prop :=
  ∀ T : Tables, T.WellFormed →
    (∀ (R : Half) (j : Fin 48), srcBit (expand T R) (j.val + 1) = srcBit R T.e[j]) ∧
    expand T 0#32 = 0#48 ∧ expand T 0xFFFFFFFF#32 = 0xFFFFFFFFFFFF#48

/-- R153 with R102: output o_i lands in `Z[35-4i : 32-4i]` and is the entry of S-box i in the row of the group's first and
last bit and the column of its middle four bits; group i is `Y<6i-5 .. 6i>`. That the first bit is the row's high bit and
that the column is read most significant bit first is R102's own reading (D5), not its source's. Here i is the S-box's
number less one. -/
def Obligations.SubstitutionStep : Prop :=
  ∀ (T : Tables) (Y : RoundKey) (i : Fin 8),
    let row := 2 * (srcBit Y (6 * i.val + 1)).toNat + (srcBit Y (6 * i.val + 6)).toNat
    let col := 8 * (srcBit Y (6 * i.val + 2)).toNat + 4 * (srcBit Y (6 * i.val + 3)).toNat +
      2 * (srcBit Y (6 * i.val + 4)).toNat + (srcBit Y (6 * i.val + 5)).toNat
    some ((substitute T Y).extractLsb' (28 - 4 * i.val) 4) = (T.s[i][row]?).bind fun r => r[col]?

/-- R172: BC_INIT, the first step of an ENC or DEC issued at micro-step grain. -/
def Obligations.BcInitStep : Prop :=
  ∀ (s : State) (dir : Direction) (d : Block) (ms : List HostMove), s.eng.phase = .idle → s.eng.kv = true →
    s.rsp = none → s.moves = .start (match dir with | .enc => 0x0003#16 | .dec => 0x0004#16) d :: ms →
    step s = .next { s with
      eng := { s.eng with
        l := (permute d tables.ip).extractLsb' 32 32
        r := (permute d tables.ip).extractLsb' 0 32
        tl := s.eng.tl.set 0 ((permute d tables.ip).extractLsb' 32 32)
        tr := s.eng.tr.set 0 ((permute d tables.ip).extractLsb' 0 32)
        dir := dir
        rnd := 0#5
        phase := .bc }
      wdata := d
      moves := ms }

/-- R171, R173: BC_ROUND, round r = i + 1: the key is RK[r] for ENC and RK[17-r] for DEC, and f is written out here as the
four steps of R150 to R154. Over every TABLES, `roundF` is that f (`substitute` is what SubstitutionStep says), and BlockFn
makes the same rounds from the halves of `Permute(B, IP)` to FP of the halves exchanged (R170). -/
def Obligations.BcRoundStep : Prop :=
  let f := fun (T : Tables) (R : Half) (K : RoundKey) =>
    permute (m := 32) (substitute T (permute (m := 48) R T.e ^^^ K)) T.p
  let keyOf := fun (dir : Direction) (rks : RoundKeySet) (i : Fin 16) =>
    if dir = .enc then rks[i] else rks[17 - (i.val + 1) - 1]
  (∀ (s : State) (i : Fin 16), s.eng.phase = .bc → s.eng.rnd = BitVec.ofNat 5 i.val → s.moves = [] →
    let F := f tables s.eng.r (keyOf s.eng.dir s.eng.rk i)
    step s = .next { s with
      eng := { s.eng with
        l := s.eng.r
        r := s.eng.l ^^^ F
        tf := s.eng.tf.set i F
        tl := s.eng.tl.set (i.val + 1) s.eng.r
        tr := s.eng.tr.set (i.val + 1) (s.eng.l ^^^ F)
        rnd := BitVec.ofNat 5 (i.val + 1) } }) ∧
  (∀ (T : Tables) (R : Half) (K : RoundKey), roundF T R K = f T R K) ∧
  (∀ (T : Tables) (B : Block) (rks : RoundKeySet) (dir : Direction),
    let L := fun n => (blockHalves T B rks dir n).1
    let R := fun n => (blockHalves T B rks dir n).2
    L 0 = srcSlice (permute (m := 64) B T.ip) 1 32 ∧ R 0 = srcSlice (permute (m := 64) B T.ip) 33 32 ∧
    (∀ i : Fin 16, blockF T B rks dir i = f T (R i) (keyOf dir rks i) ∧
      L (i.val + 1) = R i ∧ R (i.val + 1) = L i ^^^ f T (R i) (keyOf dir rks i)) ∧
    blockFn T B rks dir = permute (m := 64) (R 16 ++ L 16) T.fp)

/-- R174: BC_FINAL: R on the left, then FP; the output block is both DOUT and the response. -/
def Obligations.BcFinalStep : Prop :=
  ∀ s : State, s.eng.phase = .bc → s.eng.rnd = 16#5 → s.moves = [] →
    let out := permute (m := 64) (s.eng.r ++ s.eng.l) tables.fp
    step s = .next { s with
      eng := { s.eng with dout := out, tv := true, phase := .idle }
      rsp := some ⟨.ok, out⟩ }

/-- R180: the inverse law, for every well-formed TABLES, every sixteen round keys and every block; and in the engine: DEC
of the RDATA of `ENC x` returns x, and the reverse, in every state that still has the round keys of the first command
valid (no LDKEY or KEXP between). -/
def Obligations.InverseLaw : Prop :=
  (∀ T : Tables, T.WellFormed → ∀ (rks : RoundKeySet) (B : Block),
    blockFn T (blockFn T B rks .enc) rks .dec = B ∧ blockFn T (blockFn T B rks .dec) rks .enc = B) ∧
  (∀ (i j : Instr) (s t u : State) (y : Block), (i = .enc ∧ j = .dec) ∨ (i = .dec ∧ j = .enc) → s.eng.kv = true →
    exec i s = .next t → t.rsp = some ⟨.ok, y⟩ → u.eng.kv = true → u.eng.rk = t.eng.rk → u.wdata = y →
    ∃ v : State, exec j u = .next v ∧ v.rsp = some ⟨.ok, s.wdata⟩)

/-- R182: the redundancy of one trace, and the mirror of the traces of an ENC and of a DEC of its result under the same
round keys, whatever happened between. -/
def Obligations.TraceMirror : Prop :=
  ∀ (s t u v : State) (y : Block), s.eng.kv = true → exec .enc s = .next t → t.rsp = some ⟨.ok, y⟩ →
    u.eng.kv = true → u.eng.rk = t.eng.rk → u.wdata = y → exec .dec u = .next v →
    (∀ i : Fin 16, t.eng.tl[i.val + 1] = t.eng.tr[i.val] ∧ t.eng.tr[i.val + 1] = t.eng.tl[i.val] ^^^ t.eng.tf[i]) ∧
    (∀ j : Fin 17, v.eng.tl[j] = t.eng.tr[16 - j.val] ∧ v.eng.tr[j] = t.eng.tl[16 - j.val]) ∧
    (∀ i : Fin 16, v.eng.tf[i] = t.eng.tf[15 - i.val])

/-! ### Port, reset, invariants (10, 30, 70) -/

/-- R83: a command issued as one transaction runs exec of the decoded command on the sampled operand, and the host takes
the response. R8, 10_state.md R21: the same over every TABLES; exec and step are execOn and stepOn at the model's tables,
and a command other than KEXP, ENC and DEC does not read them. The move list is the model's form of the host (log 1). -/
def Obligations.StepRunsTheDecodedCommand : Prop :=
  let taken := fun (r : Result) => match r with
    | .next t => Host.Outcome.next { t with rsp := none, taken := t.taken ++ t.rsp.toList }
    | .fault f => .fault f
    | .refused r => .refused r
  (∀ (s : State) (w : CmdWord) (d : Block) (ms : List HostMove) (i : Instr),
    s.eng.phase = .idle → s.rsp = none → s.moves = .command w d :: ms → decode w = .ok i →
    step s = taken (exec i { s with wdata := d, moves := ms }) ∧
    ∀ T : Tables, stepOn T s = taken (execOn T i { s with wdata := d, moves := ms })) ∧
  (∀ s : State, step s = stepOn tables s) ∧ (∀ (i : Instr) (s : State), exec i s = execOn tables i s) ∧
  (∀ (T : Tables) (i : Instr) (s : State), i ≠ .kexp → i ≠ .enc → i ≠ .dec → execOn T i s = exec i s)

/-- R77, R83: every word presented to a ready engine, legal or not, gets exactly one response, after which the engine is
ready again; a failed response carries zero data. -/
def Obligations.EveryCommandResponds : Prop :=
  ∀ (s : State) (w : CmdWord) (d : Block) (ms : List HostMove),
    s.eng.phase = .idle → s.rsp = none → s.moves = .command w d :: ms →
    ∃ (t : State) (r : Response), step s = .next t ∧ t.taken = s.taken ++ [r] ∧ t.moves = ms ∧ cmdReady t = true ∧
      (r.stat ≠ .ok → r.rdata = 0#64)

/-- R82, R83: while a sequence runs, `cmd_ready` is 0 and the engine does in one step what it does with no host move at
all: a word the host presents is not accepted. That the word and a `take` wait and stay to be made, and that a `wait`
passes, is the model's deduction about the host (DEDUCED, assumption log 6). -/
def Obligations.BusyAcceptsNothing : Prop :=
  ∀ (s : State) (rest : List HostMove), s.eng.phase ≠ .idle →
    ((∃ w d ms, s.moves = .command w d :: ms ∨ s.moves = .start w d :: ms) ∧ rest = s.moves ∨
      (∃ ms, s.moves = .take :: ms) ∧ rest = s.moves ∨ s.moves = .wait :: rest) →
    cmdReady s = false ∧
    step s = match step { s with moves := [] } with
      | .next t => .next { t with moves := rest }
      | .fault f => .fault f
      | .refused r => .refused r

/-- R82, R83: the port of an idle engine. While a response is pending, `cmd_ready` is 0 and `rsp_valid` is 1, and the
response is held, with everything else, until the host takes it; a word presented then is not accepted. That the host
answers such a word by taking the response first, the word staying to be presented, and that a `take` with nothing to
take passes, is the model's deduction (DEDUCED, assumption log 6). With no response pending `cmd_ready` is 1. -/
def Obligations.PendingResponseIsHeld : Prop :=
  ∀ s : State, s.eng.phase = .idle →
    (∀ r : Response, s.rsp = some r → cmdReady s = false ∧ rspValid s = true ∧
      (s.moves = [] → step s = .next s) ∧
      (∀ ms, s.moves = .wait :: ms → step s = .next { s with moves := ms }) ∧
      (∀ ms, s.moves = .take :: ms → step s = .next { s with rsp := none, moves := ms, taken := s.taken ++ [r] }) ∧
      (∀ w d ms, s.moves = .command w d :: ms ∨ s.moves = .start w d :: ms →
        step s = .next { s with rsp := none, taken := s.taken ++ [r] })) ∧
    (s.rsp = none → cmdReady s = true ∧ rspValid s = false ∧
      (s.moves = [] → step s = .next s) ∧
      (∀ ms, s.moves = .wait :: ms ∨ s.moves = .take :: ms → step s = .next { s with moves := ms }))

/-- R270, R271: reset in any phase, a command in progress abandoned without a response; `cmd_ready` is then 1. That a
response already pending is dropped too is the model's deduction from R270 and R82, by which `cmd_ready` is 1 only when no
response is pending (DEDUCED, assumption log 7). -/
def Obligations.ResetDominates : Prop :=
  ∀ (s : State) (ms : List HostMove), s.moves = .reset :: ms →
    step s = .next { s with eng := State.reset.eng, rsp := none, moves := ms } ∧
    cmdReady { s with eng := State.reset.eng, rsp := none, moves := ms } = true

/-- R9, R276: the command and the micro-step as the model's step agree: issued at micro-step grain, a command reaches, in
17 steps for a successful KEXP, 18 for a successful ENC or DEC and one otherwise, exactly the state and the response the
command has as one transaction. R276 counts 0 micro-steps for every other command; that it, and a failing one, takes the
one step that accepts it is the model's choice (DESIGN CHOICE, assumption log 3). -/
def Obligations.CommandIsItsMicroSteps : Prop :=
  ∀ (s : State) (w : CmdWord) (d : Block), s.eng.phase = .idle → s.rsp = none → s.moves = [] →
    Host.Core.run core
      (if w = 0x0002#16 ∧ s.eng.kl = true then 17
       else if (w = 0x0003#16 ∨ w = 0x0004#16) ∧ s.eng.kv = true then 18 else 1)
      { s with moves := [.start w d] } = issue w d s

/-- R29, R32, R35, R201: the invariant holds after reset, whatever the tables. -/
def Obligations.ResetKeepsInvariant : Prop := ∀ T : Tables, State.reset.Inv T

/-- R29, R32, R35, R201: every step keeps the invariant, from every state that has it and for every host move; over every
TABLES, and of `step` itself. -/
def Obligations.StepKeepsInvariant : Prop :=
  (∀ (T : Tables) (s t : State), s.Inv T → stepOn T s = .next t → t.Inv T) ∧
  (∀ s t : State, s.Inv tables → step s = .next t → t.Inv tables)

/-- R83, R246: a state with the invariant never stops; over every TABLES, and of `step` itself. -/
def Obligations.InvariantStatesProceed : Prop :=
  (∀ (T : Tables) (s : State), s.Inv T → Proceeds T s) ∧ (∀ s : State, s.Inv tables → ∃ t, step s = .next t)

/-- R201: the values of STATUS[3:0] that RDST can return between commands, whatever the tables. -/
def Obligations.ReachableStatus : Prop :=
  ∀ (T : Tables) (s t : State) (d : Block), s.Inv T → s.eng.phase = .idle → exec .rdst s = .next t →
    t.rsp = some ⟨.ok, d⟩ → d.extractLsb' 0 4 ∈ [0x0#4, 0x1#4, 0x3#4, 0x5#4, 0x7#4, 0xD#4, 0xF#4]

/-! ### Host software (20, 45) -/

/-- R51, R52: the bytes of a key, the first most significant, each most significant bit first. R51 states this order for
blocks; that the key uses it too is what R52 calls the spec's reading (D6). -/
def Obligations.PackedByteOrder : Prop :=
  ∀ (bs : Vector Byte 8) (j : Fin 8),
    (packBytes bs.toList).extractLsb' (56 - 8 * j.val) 8 = bs[j] ∧
    ∀ i, 1 ≤ i → i ≤ 8 → srcBit (packBytes bs.toList) (8 * j.val + i) = srcBit bs[j] i

/-- R211: exactly 8 bytes, extra bytes dropped, missing bytes zero at the end (the side of the zero bytes is the spec's own
choice, D6). -/
def Obligations.NormalizedSecret : Prop :=
  ∀ s : List Byte, (normalizeSecret s).length = 8 ∧
    (8 ≤ s.length → normalizeSecret s = s.take 8) ∧
    (s.length < 8 → normalizeSecret s = s ++ List.replicate (8 - s.length) 0#8)

/-- R214, R224: max(1, ceil(n/8)) blocks for n bytes, zero bytes appended. That the empty text gives one block is the
spec's own choice between two statements of its source (D22, 90_conflicts.md C1). -/
def Obligations.PlaintextBlocks : Prop :=
  ∀ text : List Char,
    (textBlocks text).length = max 1 (((utf8Encode text).length + 7) / 8) ∧
    cutBits 8 ((textBlocks text).flatMap bitsOf) =
      utf8Encode text ++ List.replicate (8 * max 1 (((utf8Encode text).length + 7) / 8) - (utf8Encode text).length) 0#8

/-- R219, R181, R215, R53, R224: on an idle engine `encrypt` returns the upper-case hexadecimal digits of the blocks' images
under BlockFn with the round keys of the normalised secret, block by block, 16 digits each, digit m+1 of a block from its
bits 4m+1 .. 4m+4; the engine is then idle with no response pending. -/
def Obligations.EncryptIsEcb : Prop :=
  let digits := fun B : Block => (List.range 16).map fun m =>
    ['0', '1', '2', '3', '4', '5', '6', '7', '8', '9', 'A', 'B', 'C', 'D', 'E', 'F'][(srcSlice B (4 * m + 1) 4).toNat]?
  ∀ (T : Tables) (s : State) (plaintext secret : List Char), s.eng.phase = .idle → s.rsp = none →
    ∃ (t : State) (hex : List Char), encrypt T s plaintext secret = (t, .text hex) ∧
      hex.map some = ((textBlocks plaintext).map fun b =>
        digits (blockFn T b (ks T (keyOfSecret secret)) .enc)).flatten ∧
      hex.length = 16 * (textBlocks plaintext).length ∧ t.eng.phase = .idle ∧ t.rsp = none

/-- R217: a ciphertext string is a fatal input error exactly when, after `ws` is stripped, it has no digit, an odd number
of digits or another character; it is found before any command: the machine is as it was. That normalising the string is
stripping `ws` is what R217 says "this spec takes it to be" (D23); it and the form of the failure are assumption log 14
(DESIGN CHOICE). -/
def Obligations.MalformedCiphertext : Prop :=
  ∀ (T : Tables) (ws : Char → Bool) (s : State) (hex secret : List Char),
    let malformed := strip ws hex = [] ∨ (strip ws hex).length % 2 = 1 ∨
      (∃ ch ∈ strip ws hex, ch ∉ ['0', '1', '2', '3', '4', '5', '6', '7', '8', '9', 'a', 'b', 'c', 'd', 'e', 'f',
        'A', 'B', 'C', 'D', 'E', 'F'])
    ((decrypt T ws s hex secret).2 = .inputError ↔ malformed) ∧ (malformed → (decrypt T ws s hex secret).1 = s)

/-- R216, R218, R220, the twin of EncryptIsEcb. `vs` are the values of the digits, of either case, of a string that is not
malformed. `hexToBits` puts in front the z < 64 zero bits that are missing to a multiple of 64, and `blocks` are the
blocks cut from the result. On an idle engine `decrypt` runs BlockFn backwards on each block with the round keys of the
normalised secret. If the bytes of the results are the UTF-8 of a text, it returns that text less its trailing U+0000 and
then less surrounding `ws`; if they are the UTF-8 of no text, it is a decode failure and no string. UTF-8 itself is the
model's (PRESUMED, log 12), as are the set `ws` (log 13) and the form of the failure (log 14). -/
def Obligations.DecryptIsEcb : Prop :=
  ∀ (T : Tables) (ws : Char → Bool) (s : State) (hex secret : List Char) (vs : List (BitVec 4)),
    s.eng.phase = .idle → s.rsp = none → vs ≠ [] → vs.length % 2 = 0 →
    List.Forall₂ (fun (ch : Char) (v : BitVec 4) =>
      ['0', '1', '2', '3', '4', '5', '6', '7', '8', '9', 'A', 'B', 'C', 'D', 'E', 'F'][v.toNat]? = some ch ∨
      ['0', '1', '2', '3', '4', '5', '6', '7', '8', '9', 'a', 'b', 'c', 'd', 'e', 'f'][v.toNat]? = some ch)
      (strip ws hex) vs →
    ∃ (z : Nat) (blocks : List Block) (t : State),
      z < 64 ∧ blocks.flatMap bitsOf = List.replicate z false ++ vs.flatMap bitsOf ∧
      hexToBits ws hex = some (blocks.flatMap bitsOf) ∧ t.eng.phase = .idle ∧ t.rsp = none ∧
      let bytes := cutBits 8 ((blocks.map fun b => blockFn T b (ks T (keyOfSecret secret)) .dec).flatMap bitsOf)
      (∀ text, utf8Encode text = bytes → decrypt T ws s hex secret = (t, .text (strip ws (stripNul text)))) ∧
      ((∀ text, utf8Encode text ≠ bytes) → decrypt T ws s hex secret = (t, .decodeFailure))

/-- R224 with 90_conflicts.md C6: decrypt undoes encrypt under one secret, over every well-formed TABLES, for every
plaintext that neither ends in U+0000 nor begins or ends with a character of `ws`, where `ws` holds no hexadecimal
digit. -/
def Obligations.MessageInverseLaw : Prop :=
  ∀ T : Tables, T.WellFormed → ∀ (ws : Char → Bool) (s t : State) (plaintext secret hex : List Char),
    s.eng.phase = .idle → s.rsp = none →
    (∀ ch ∈ ['0', '1', '2', '3', '4', '5', '6', '7', '8', '9', 'A', 'B', 'C', 'D', 'E', 'F'], ws ch = false) →
    plaintext.getLast? ≠ some (Char.ofNat 0) → strip ws plaintext = plaintext →
    encrypt T s plaintext secret = (t, .text hex) →
    (decrypt T ws t hex secret).2 = .text plaintext
end

