-- ==== Sys2Proof/Laws/Primitives.lean ====
section
/-! SUPPORT. What the primitive functions do, bit by bit: later proofs cite these and unfold neither `ofSrcBits` nor
`permute`. -/

namespace Sys2Proof.Machine

/-- Bit k of a value given by its source bits. -/
theorem getLsbD_ofSrcBits (m : Nat) (b : Nat → Bool) (k : Nat) :
    (ofSrcBits m b).getLsbD k = (decide (k < m) && b (m - 1 - k)) := by
  induction m generalizing k with
  | zero => simp [ofSrcBits]
  | succ m ih =>
    rw [ofSrcBits, BitVec.getLsbD_concat]
    cases k with
    | zero => simp
    | succ k =>
      simp only [Nat.add_one_ne_zero, ↓reduceIte, Nat.add_sub_cancel, ih]
      congr 1
      · simp
      · congr 1; omega

/-- A position beyond the width reads as the least significant bit (assumption log 23). -/
theorem srcBit_beyond {n : Nat} (V : BitVec n) {i : Nat} (h : n ≤ i) : srcBit V i = V.getLsbD 0 := by
  rw [srcBit, Nat.sub_eq_zero_of_le h]

/-- Source bit i of a value given by its source bits. -/
theorem srcBit_ofSrcBits {m : Nat} (b : Nat → Bool) {i : Nat} (h1 : 1 ≤ i) (hm : i ≤ m) :
    srcBit (ofSrcBits m b) i = b (i - 1) := by
  rw [srcBit, getLsbD_ofSrcBits]
  have : m - 1 - (m - i) = i - 1 := by omega
  simp [this]; omega

/-- Two values with the same source bits are the same. -/
theorem eq_of_srcBit {n : Nat} {V W : BitVec n} (h : ∀ i, 1 ≤ i → i ≤ n → srcBit V i = srcBit W i) : V = W := by
  apply BitVec.eq_of_getLsbD_eq
  intro k hk
  have := h (n - k) (by omega) (by omega)
  simpa [srcBit, Nat.sub_sub_self (Nat.le_of_lt hk)] using this

/-- Source bit j of a permuted value is the source bit the table names (R100). -/
theorem srcBit_permute {n m : Nat} (V : BitVec n) (T : Vector Nat m) {j : Nat} (h1 : 1 ≤ j) (hm : j ≤ m) :
    srcBit (permute V T) j = srcBit V (T.getD (j - 1) 0) := by
  rw [permute, srcBit_ofSrcBits _ h1 hm]

/-- A slice's source bits (R12). -/
theorem srcBit_srcSlice {n : Nat} (V : BitVec n) {a len i : Nat} (h1 : 1 ≤ i) (hl : i ≤ len) (ha : 1 ≤ a)
    (hn : a + len ≤ n + 1) : srcBit (srcSlice V a len) i = srcBit V (a + i - 1) := by
  simp only [srcBit, srcSlice, BitVec.getLsbD_extractLsb']
  have h2 : n + 1 - a - len + (len - i) = n - (a + i - 1) := by omega
  simp [h2]; omega

/-- A concatenation's source bits (R12). -/
theorem srcBit_append {p q : Nat} (A : BitVec p) (B : BitVec q) {i : Nat} (_ : 1 ≤ i) (hq : i ≤ p + q) :
    srcBit (A ++ B) i = if i ≤ p then srcBit A i else srcBit B (i - p) := by
  simp only [srcBit, BitVec.getLsbD_append]
  split <;> split
  · omega
  · congr 1; omega
  · congr 1; omega
  · omega

/-- Splitting a value in two and joining the parts gives it back. -/
theorem srcSlice_append {p q n : Nat} (hn : n = p + q) (V : BitVec n) :
    srcSlice V 1 p ++ srcSlice V (p + 1) q = V.cast hn := by
  subst hn
  apply eq_of_srcBit
  intro i h1 h2
  rw [srcBit_append _ _ h1 h2]
  split
  · rw [srcBit_srcSlice _ h1 (by assumption) (by omega) (by omega)]; simp
  · rw [srcBit_srcSlice _ (by omega) (by omega) (by omega) (by omega)]
    simp; congr 1; omega

/-- The two halves of a joined value. -/
theorem srcSlice_of_append {p q : Nat} (A : BitVec p) (B : BitVec q) :
    srcSlice (A ++ B) 1 p = A ∧ srcSlice (A ++ B) (p + 1) q = B := by
  constructor <;> apply eq_of_srcBit <;> intro i h1 h2
  · rw [srcBit_srcSlice _ h1 h2 (by omega) (by omega), srcBit_append _ _ (by omega) (by omega)]
    simp [h2]
  · rw [srcBit_srcSlice _ h1 h2 (by omega) (by omega), srcBit_append _ _ (by omega) (by omega)]
    have h3 : ¬ (p + 1 + i - 1 ≤ p) := by omega
    rw [if_neg h3]; congr 1; omega

/-- A source bit is false outside the value's width on the left. -/
theorem srcBit_zero {n : Nat} (V : BitVec n) : srcBit V 0 = false := by simp [srcBit]

/-- The source bits of a left rotation (R101). -/
theorem getLsbD_rotL {n : Nat} (V : BitVec n) (s : Nat) (k : Nat) :
    (rotL V s).getLsbD k = (decide (k < n) && !decide (k < s) && V.getLsbD (k - s) || V.getLsbD (n - s + k)) := by
  simp [rotL]

end Sys2Proof.Machine
end

