-- ==== Sys2Proof/Laws/Codec.lean ====
section
/-! SUPPORT. The host's codec, both ways: cutting a bit list into values and joining them, hexadecimal digits, and one
character's UTF-8 bytes. Later proofs cite these and unfold neither `bitsAt` nor `utf8Next`. -/

namespace Sys2Proof.Machine

@[simp] theorem bitsOf_length {n : Nat} (V : BitVec n) : (bitsOf V).length = n := by simp [bitsOf]

/-- The bits of values of one width, joined, are as many as they should be. -/
theorem flatMap_bitsOf_length {n : Nat} (vs : List (BitVec n)) : (vs.flatMap bitsOf).length = n * vs.length := by
  induction vs with
  | nil => simp
  | cons v vs ih => simp [ih, Nat.mul_add, Nat.add_comm]

/-- The value read at the head of a bit list that begins with a value's bits. -/
theorem bitsAt_head {n : Nat} (v : BitVec n) (rest : List Bool) : bitsAt n (bitsOf v ++ rest) 0 = v := by
  apply eq_of_srcBit
  intro i h1 h2
  rw [bitsAt, srcBit_ofSrcBits _ h1 h2]
  simp only [Nat.zero_add]
  rw [List.getD_append _ _ _ _ (by simp; omega)]
  simp [bitsOf, List.getD_eq_getElem?_getD, List.getElem?_range (show i - 1 < n by omega)]
  congr 1
  omega

/-- The value read further on. -/
theorem bitsAt_tail {n m : Nat} (v : BitVec m) (rest : List Bool) (pos : Nat) :
    bitsAt n (bitsOf v ++ rest) (m + pos) = bitsAt n rest pos := by
  rw [bitsAt, bitsAt]
  congr 1
  funext j
  rw [List.getD_append_right _ _ _ _ (by simp; omega)]
  congr 1
  simp; omega

/-- Cutting a bit list that begins with a value's bits. -/
theorem cutBits_append {n : Nat} (hn : 0 < n) (v : BitVec n) (rest : List Bool) :
    cutBits n (bitsOf v ++ rest) = v :: cutBits n rest := by
  rw [cutBits, cutBits, List.length_append, bitsOf_length, Nat.add_div_left _ hn, List.range_succ_eq_map,
    List.map_cons, List.map_map, Nat.mul_zero, bitsAt_head]
  congr 1
  refine List.map_congr_left fun m _ => ?_
  rw [Function.comp, Nat.mul_succ, Nat.add_comm, bitsAt_tail]

/-- Cutting the joined bits of values of one width gives the values back. -/
theorem cutBits_flatMap {n : Nat} (hn : 0 < n) (vs : List (BitVec n)) : cutBits n (vs.flatMap bitsOf) = vs := by
  induction vs with
  | nil => simp [cutBits]
  | cons v vs ih => rw [List.flatMap_cons, cutBits_append hn, ih]

/-- A digit's value (R215, R216). -/
theorem hexValue_hexDigit (v : BitVec 4) : hexValue (hexDigit v) = some v := by
  revert v; decide

/-- Digits read one by one. -/
theorem mapM_hexValue (vs : List (BitVec 4)) : (vs.map hexDigit).mapM hexValue = some vs := by
  induction vs with
  | nil => rfl
  | cons v vs ih => simp [List.mapM_cons, hexValue_hexDigit, ih]

/-- The character with a valid code point at or above the least one allowed. -/
theorem charFrom_toNat {low : Nat} (ch : Char) (h : low ≤ ch.toNat) : charFrom low ch.toNat = some ch := by
  have hv : low ≤ ch.toNat ∧ ch.toNat.isValidChar := ⟨h, ch.valid⟩
  unfold charFrom
  split
  · exact congrArg some (Char.ext (UInt32.toNat_inj.mp rfl))
  · contradiction

theorem byteOf_toNat {n : Nat} (h : n < 256) : (byteOf n).toNat = n := by
  simp; omega

/-- A continuation byte carries its six bits. -/
theorem continuation_byteOf {n : Nat} (h : n < 64) : continuation (byteOf (0x80 + n)) = some n := by
  rw [continuation, byteOf_toNat (by omega), if_pos (by omega), Nat.add_sub_cancel_left]

/-- The code points of a character are below 0x110000. -/
theorem char_lt (ch : Char) : ch.toNat < 0x110000 := by
  rcases ch.valid with h | h
  · have : ch.toNat < 0xD800 := h
    omega
  · exact h.2

/-- One character's bytes, whatever follows them, read back as that character (R213, R218). -/
theorem utf8Next_utf8Char (ch : Char) (rest : List Byte) : utf8Next (utf8Char ch ++ rest) = some (ch, rest) := by
  have hlt := char_lt ch
  unfold utf8Char
  dsimp only
  split
  · simp only [List.cons_append, List.nil_append, utf8Next]
    rw [byteOf_toNat (by omega), if_pos (by omega), charFrom_toNat ch (by omega)]; rfl
  split
  · simp only [List.cons_append, List.nil_append, utf8Next]
    rw [byteOf_toNat (by omega), if_neg (by omega), if_neg (by omega), if_pos (by omega),
      continuation_byteOf (by omega)]
    simp only [Option.bind_eq_bind, Option.bind_some]
    rw [show (0xC0 + ch.toNat / 64 - 0xC0) * 64 + ch.toNat % 64 = ch.toNat by omega, charFrom_toNat ch (by omega)]; rfl
  split
  · simp only [List.cons_append, List.nil_append, utf8Next]
    rw [byteOf_toNat (by omega), if_neg (by omega), if_neg (by omega), if_neg (by omega), if_pos (by omega),
      continuation_byteOf (by omega), continuation_byteOf (by omega)]
    simp only [Option.bind_eq_bind, Option.bind_some]
    rw [show (0xE0 + ch.toNat / 4096 - 0xE0) * 4096 + ch.toNat / 64 % 64 * 64 + ch.toNat % 64 = ch.toNat by omega,
      charFrom_toNat ch (by omega)]; rfl
  · simp only [List.cons_append, List.nil_append, utf8Next]
    rw [byteOf_toNat (by omega), if_neg (by omega), if_neg (by omega), if_neg (by omega), if_neg (by omega),
      continuation_byteOf (by omega), continuation_byteOf (by omega), continuation_byteOf (by omega)]
    simp only [Option.bind_eq_bind, Option.bind_some]
    rw [show (0xF0 + ch.toNat / 262144 - 0xF0) * 262144 + ch.toNat / 4096 % 64 * 4096 + ch.toNat / 64 % 64 * 64 +
      ch.toNat % 64 = ch.toNat by omega, charFrom_toNat ch (by omega)]; rfl

/-- A character takes at least one byte. -/
theorem utf8Char_ne_nil (ch : Char) : utf8Char ch ≠ [] := by
  unfold utf8Char; dsimp only; repeat' split
  all_goals simp

/-- Decoding with fuel for one more character than the text has. -/
theorem utf8DecodeFuel_utf8Encode (text : List Char) {fuel : Nat} (h : text.length ≤ fuel) :
    utf8DecodeFuel fuel (utf8Encode text) = some text := by
  induction text generalizing fuel with
  | nil => cases fuel <;> rfl
  | cons ch text ih =>
    obtain ⟨fuel, rfl⟩ : ∃ f, fuel = f + 1 := ⟨fuel - 1, by simp at h; omega⟩
    have hn := utf8Next_utf8Char ch (utf8Encode text)
    have he : utf8Encode (ch :: text) = utf8Char ch ++ utf8Encode text := by simp [utf8Encode]
    rw [he]
    cases hb : utf8Char ch ++ utf8Encode text with
    | nil => simp [utf8Char_ne_nil] at hb
    | cons b bs =>
      rw [hb] at hn
      simp only [utf8DecodeFuel, hn, Option.bind_eq_bind, Option.bind_some]
      rw [ih (by simp at h; omega)]; rfl

/-- A text has no more characters than bytes. -/
theorem length_le_utf8Encode (text : List Char) : text.length ≤ (utf8Encode text).length := by
  induction text with
  | nil => simp [utf8Encode]
  | cons ch text ih =>
    have := List.length_pos_iff.mpr (utf8Char_ne_nil ch)
    simp only [utf8Encode, List.flatMap_cons, List.length_append, List.length_cons] at ih ⊢
    omega

/-- A text's bytes decode to the text (R213, R218). -/
theorem utf8Decode_utf8Encode (text : List Char) : utf8Decode (utf8Encode text) = some text :=
  utf8DecodeFuel_utf8Encode text (length_le_utf8Encode text)

/-- The character of a code point, when there is one, has that code point and is not below the least one allowed. -/
theorem charFrom_eq_some {low n : Nat} {ch : Char} (h : charFrom low n = some ch) : low ≤ n ∧ ch.toNat = n := by
  unfold charFrom at h
  split at h
  · rename_i hv
    cases h
    exact ⟨hv.1, rfl⟩
  · cases h

theorem continuation_eq_some {b : Byte} {n : Nat} (h : continuation b = some n) : b.toNat = 0x80 + n ∧ n < 64 := by
  unfold continuation at h
  split at h
  · injection h with h
    omega
  · cases h

theorem byteOf_of_toNat {b : Byte} {n : Nat} (h : n = b.toNat) : byteOf n = b := by
  subst h; simp

/-- What `utf8Next` reads is the character's own UTF-8 bytes: no other spelling is accepted (R218). -/
theorem utf8Next_sound {bs rest : List Byte} {ch : Char} (h : utf8Next bs = some (ch, rest)) :
    bs = utf8Char ch ++ rest := by
  cases bs with
  | nil => cases h
  | cons b0 bs =>
    simp only [utf8Next] at h
    split at h
    · cases hc : charFrom 0 b0.toNat with
      | none => rw [hc] at h; cases h
      | some c =>
        rw [hc] at h; cases h
        obtain ⟨-, hn⟩ := charFrom_eq_some hc
        unfold utf8Char; dsimp only
        rw [if_pos (by omega), byteOf_of_toNat hn]; rfl
    split at h
    · cases h
    split at h
    · split at h
      · rename_i b1 rest'
        simp only [Option.bind_eq_bind, Option.bind_eq_some_iff] at h
        obtain ⟨n1, h1, c, hc, he⟩ := h
        cases he
        obtain ⟨e1, l1⟩ := continuation_eq_some h1
        obtain ⟨hl, hn⟩ := charFrom_eq_some hc
        unfold utf8Char; dsimp only
        rw [if_neg (by omega), if_pos (by omega), byteOf_of_toNat (b := b0) (by omega),
          byteOf_of_toNat (b := b1) (by omega)]; rfl
      · cases h
    split at h
    · split at h
      · rename_i b1 b2 rest'
        simp only [Option.bind_eq_bind, Option.bind_eq_some_iff] at h
        obtain ⟨n1, h1, n2, h2, c, hc, he⟩ := h
        cases he
        obtain ⟨e1, l1⟩ := continuation_eq_some h1
        obtain ⟨e2, l2⟩ := continuation_eq_some h2
        obtain ⟨hl, hn⟩ := charFrom_eq_some hc
        unfold utf8Char; dsimp only
        rw [if_neg (by omega), if_neg (by omega), if_pos (by omega), byteOf_of_toNat (b := b0) (by omega),
          byteOf_of_toNat (b := b1) (by omega), byteOf_of_toNat (b := b2) (by omega)]; rfl
      · cases h
    · split at h
      · rename_i b1 b2 b3 rest'
        simp only [Option.bind_eq_bind, Option.bind_eq_some_iff] at h
        obtain ⟨n1, h1, n2, h2, n3, h3, c, hc, he⟩ := h
        cases he
        obtain ⟨e1, l1⟩ := continuation_eq_some h1
        obtain ⟨e2, l2⟩ := continuation_eq_some h2
        obtain ⟨e3, l3⟩ := continuation_eq_some h3
        obtain ⟨hl, hn⟩ := charFrom_eq_some hc
        unfold utf8Char; dsimp only
        rw [if_neg (by omega), if_neg (by omega), if_neg (by omega), byteOf_of_toNat (b := b0) (by omega),
          byteOf_of_toNat (b := b1) (by omega), byteOf_of_toNat (b := b2) (by omega),
          byteOf_of_toNat (b := b3) (by omega)]; rfl
      · cases h

/-- Bytes that decode are the UTF-8 of the text they decode to. -/
theorem utf8DecodeFuel_sound {fuel : Nat} {bs : List Byte} {text : List Char} (h : utf8DecodeFuel fuel bs = some text) :
    utf8Encode text = bs := by
  induction fuel generalizing bs text with
  | zero => cases bs <;> cases h; rfl
  | succ fuel ih =>
    cases bs with
    | nil => cases h; rfl
    | cons b bs =>
      simp only [utf8DecodeFuel, Option.bind_eq_bind, Option.bind_eq_some_iff] at h
      obtain ⟨⟨c, rest⟩, hn, chs, hc, he⟩ := h
      cases he
      have hr : utf8Encode chs = rest := ih hc
      rw [utf8Next_sound hn, ← hr]
      simp [utf8Encode]

/-- A bit list begins with the bits of the value read at its head. -/
theorem bitsOf_bitsAt {n : Nat} (bits : List Bool) (h : n ≤ bits.length) : bitsOf (bitsAt n bits 0) = bits.take n := by
  apply List.ext_getElem
  · simp; omega
  · intro i h1 h2
    simp only [bitsOf_length] at h1
    simp only [bitsOf, List.getElem_map, List.getElem_range, List.getElem_take]
    rw [bitsAt, srcBit_ofSrcBits _ (by omega) (by omega)]
    simp [List.getElem?_eq_getElem (show i < bits.length by omega)]

/-- The bits of the values cut from a bit list of whole groups are the list. -/
theorem flatMap_cutBits {n : Nat} (hn : 0 < n) (k : Nat) (bits : List Bool) (h : bits.length = n * k) :
    (cutBits n bits).flatMap bitsOf = bits := by
  induction k generalizing bits with
  | zero =>
    have : bits = [] := List.length_eq_zero_iff.mp (by simpa using h)
    subst this; simp [cutBits]
  | succ k ih =>
    rw [Nat.mul_succ] at h
    have hb := bitsOf_bitsAt (n := n) bits (by omega)
    rw [← List.take_append_drop n bits, ← hb, cutBits_append hn, List.flatMap_cons, ih _ (by simp; omega), hb]

end Sys2Proof.Machine
end

