-- ==== Sys2Proof/Laws/Decode.lean ====
section
/-! SUPPORT. The fields of a command word as numbers, and what the decoder answers in terms of them. -/

namespace Sys2Proof

theorem opField_toNat (w : CmdWord) : (opField w).toNat = w.toNat % 16 := by
  simp [opField, BitVec.extractLsb'_toNat]

theorem idxField_eq (w : CmdWord) : idxField w = w.toNat / 16 % 32 := by
  simp [idxField, BitVec.extractLsb'_toNat, Nat.shiftRight_eq_div_pow]

theorem upperN_eq_zero (w : CmdWord) : upperN w = 0#12 ↔ w.toNat / 16 = 0 := by
  have := w.isLt
  rw [← BitVec.toNat_inj]
  simp [upperN, BitVec.extractLsb'_toNat, Nat.shiftRight_eq_div_pow]
  omega

theorem upperX_eq_zero (w : CmdWord) : upperX w = 0#7 ↔ w.toNat / 512 = 0 := by
  have := w.isLt
  rw [← BitVec.toNat_inj]
  simp [upperX, BitVec.extractLsb'_toNat, Nat.shiftRight_eq_div_pow]
  omega

/-- A word of format N decodes exactly when it is the opcode itself (R71). -/
theorem decodeN_ok {w : CmdWord} {i j : Instr} : decodeN w i = .ok j ↔ w.toNat / 16 = 0 ∧ i = j := by
  unfold decodeN
  split <;> simp_all [upperN_eq_zero]

/-- A word of format X decodes exactly when CMD[15:9] = 0 (R72). -/
theorem decodeX_ok {w : CmdWord} {mk : Nat → Instr} {j : Instr} :
    decodeX w mk = .ok j ↔ w.toNat / 512 = 0 ∧ mk (w.toNat / 16 % 32) = j := by
  unfold decodeX
  split <;> simp_all [upperX_eq_zero, idxField_eq]

/-- The word of format X as a number: the opcode and sixteen times the index (R72). -/
theorem encodeX_toNat {op : CmdWord} {idx : Nat} (ho : op.toNat < 16) (hi : idx ≤ 31) :
    (encodeX op idx).toNat = op.toNat + 16 * idx := by
  have h : ∀ (o : Fin 16) (j : Fin 32), (encodeX (BitVec.ofNat 16 o.val) j.val).toNat = o.val + 16 * j.val := by
    decide +kernel
  have := h ⟨op.toNat, ho⟩ ⟨idx, by omega⟩
  simpa using this

/-- The index of a decoded command of format X lies in 0..31 (R84). -/
theorem idxField_le (w : CmdWord) : idxField w ≤ 31 := by
  rw [idxField_eq]; omega

/-- The mask of format X keeps the opcode and the reserved bits (R75). -/
theorem and_xMask_eq (w c : CmdWord) (hc : c.toNat < 16) :
    w &&& 0xFE0F#16 = c ↔ w.toNat / 512 = 0 ∧ w.toNat % 16 = c.toNat := by
  have hw := w.isLt
  have h1 : (w &&& 0xFE0F#16) = (w.extractLsb' 9 7 ++ 0#5 ++ w.extractLsb' 0 4 : BitVec 16) := by
    apply BitVec.eq_of_getLsbD_eq
    intro i hi
    rw [BitVec.getLsbD_and]
    simp only [BitVec.getLsbD_append]
    have : ∀ i : Fin 16, ((0xFE0F#16).getLsbD i) = (decide (i.val < 4) || decide (9 ≤ i.val)) := by decide
    have := this ⟨i, hi⟩
    simp at this
    simp [this]
    by_cases h4 : i < 4
    · simp [h4]
    · by_cases h9 : i < 9
      · simp [h4, show i - 4 < 5 by omega]; intro; omega
      · simp [h4, show ¬ (i - 4 < 5) by omega, show 9 ≤ i by omega, show i - 4 - 5 < 7 by omega]
        congr 1; omega
  rw [h1, ← BitVec.toNat_inj]
  have h2 : (w.extractLsb' 9 7 ++ 0#5 ++ w.extractLsb' 0 4 : BitVec 16).toNat = w.toNat / 512 * 512 + w.toNat % 16 := by
    rw [BitVec.toNat_append, BitVec.toNat_append]
    rw [← Nat.shiftLeft_add_eq_or_of_lt (by simp; omega), ← Nat.shiftLeft_add_eq_or_of_lt (by simp)]
    simp [BitVec.extractLsb'_toNat, Nat.shiftRight_eq_div_pow, Nat.shiftLeft_eq]
    omega
  rw [h2]; omega

end Sys2Proof
end

