-- ==== Sys2Proof/Laws/Sequencer.lean ====
section
/-! SUPPORT. What the sequencer's loops leave after n rounds, in closed form over the pure functions KS and BlockFn: later
proofs cite these and unfold neither `Nat.repeat` nor a round. -/

namespace Sys2Proof.Machine

theorem ofNat5_toNat {n : Nat} (h : n ≤ 16) : (BitVec.ofNat 5 n).toNat = n := by
  simp; omega

/-- KS_ROUND where its precondition RND < 16 holds (R134). -/
theorem ksRound_at {T : Tables} {e : Engine} {n : Nat} (h : n < 16) (he : e.rnd = BitVec.ofNat 5 n) :
    ksRound T e = ksRoundAt T ⟨n, h⟩ e := by
  have hn : e.rnd.toNat = n := by rw [he, ofNat5_toNat (by omega)]
  simp [ksRound, hn, h]

/-- BC_ROUND where its precondition RND < 16 holds (R173). -/
theorem bcRound_at {T : Tables} {e : Engine} {n : Nat} (h : n < 16) (he : e.rnd = BitVec.ofNat 5 n) :
    bcRound T e = bcRoundAt T ⟨n, h⟩ e := by
  have hn : e.rnd.toNat = n := by rw [he, ofNat5_toNat (by omega)]
  simp [bcRound, hn, h]

theorem repeat_succ {α : Type} (f : α → α) (n : Nat) (a : α) : Nat.repeat f (n + 1) a = f (Nat.repeat f n a) := rfl

/-- The engine n rounds into KEXP's sequence. -/
def ksProgress (T : Tables) (e : Engine) (n : Nat) : Engine :=
  { e with
    c := (ksHalves T e.key n).1
    d := (ksHalves T e.key n).2
    rk := Vector.ofFn fun i : Fin 16 => if i.val < n then (ks T e.key)[i] else e.rk[i]
    rnd := BitVec.ofNat 5 n
    kv := if n = 16 then true else e.kv
    phase := if n = 16 then .idle else .ks }

theorem ksHalves_succ (T : Tables) (k : Block) {n : Nat} (h : n < 16) :
    ksHalves T k (n + 1) = ksRotate ⟨n, h⟩ (ksHalves T k n) := by
  simp [ksHalves, h]

/-- One KS_ROUND takes the sequence from n rounds to n + 1. -/
theorem ksRound_progress (T : Tables) (e : Engine) {n : Nat} (h : n < 16) :
    ksRound T (ksProgress T e n) = ksProgress T e (n + 1) := by
  rw [ksRound_at (n := n) h rfl]
  simp only [ksRoundAt, ksProgress, ksHalves_succ T e.key h, Engine.mk.injEq, true_and, and_true]
  refine ⟨?_, ?_⟩
  · ext i hi
    rw [Vector.getElem_set, Vector.getElem_ofFn, Vector.getElem_ofFn]
    by_cases hn : n = i
    · subst hn; simp [ks, ksHalves_succ T e.key h]
    · have : i < n ↔ i < n + 1 := by omega
      simp [hn, this]
  · have : n ≠ 16 := by omega
    simp [this]

/-- After n rounds (R132, R134). -/
theorem ksRounds (T : Tables) (e : Engine) {n : Nat} (h : n ≤ 16) :
    Nat.repeat (ksRound T) n (ksInit T e) = ksProgress T e n := by
  induction n with
  | zero => simp [Nat.repeat, ksInit, ksProgress, ksHalves]
  | succ n ih => rw [repeat_succ, ih (by omega), ksRound_progress T e (by omega)]

/-- The engine n rounds into ENC's or DEC's sequence. -/
def bcProgress (T : Tables) (B : Block) (dir : Direction) (e : Engine) (n : Nat) : Engine :=
  { e with
    l := (blockHalves T B e.rk dir n).1
    r := (blockHalves T B e.rk dir n).2
    tl := Vector.ofFn fun j : Fin 17 => if j.val ≤ n then (blockHalves T B e.rk dir j).1 else e.tl[j]
    tr := Vector.ofFn fun j : Fin 17 => if j.val ≤ n then (blockHalves T B e.rk dir j).2 else e.tr[j]
    tf := Vector.ofFn fun i : Fin 16 => if i.val < n then blockF T B e.rk dir i else e.tf[i]
    dir := dir
    rnd := BitVec.ofNat 5 n
    phase := .bc }

theorem blockHalves_succ (T : Tables) (B : Block) (rks : RoundKeySet) (dir : Direction) {n : Nat} (h : n < 16) :
    blockHalves T B rks dir (n + 1) = feistel T (roundKeyFor dir rks ⟨n, h⟩) (blockHalves T B rks dir n) := by
  simp [blockHalves, h]

/-- A vector given by a threshold, with the next entry set, is the vector of the next threshold. -/
theorem ofFn_set_next {α : Type} {m : Nat} (f : Fin m → α) (v : Vector α m) {n : Nat} (h : n + 1 < m) (x : α)
    (hx : x = f ⟨n + 1, h⟩) :
    (Vector.ofFn fun j : Fin m => if j.val ≤ n then f j else v[j]).set (n + 1) x h =
      Vector.ofFn fun j : Fin m => if j.val ≤ n + 1 then f j else v[j] := by
  ext j hj
  rw [Vector.getElem_set, Vector.getElem_ofFn, Vector.getElem_ofFn]
  by_cases hn : n + 1 = j
  · subst hn; simp [hx]
  · have : j ≤ n ↔ j ≤ n + 1 := by omega
    simp [hn, this]

/-- One BC_ROUND takes the sequence from n rounds to n + 1. -/
theorem bcRound_progress (T : Tables) (B : Block) (dir : Direction) (e : Engine) {n : Nat} (h : n < 16) :
    bcRound T (bcProgress T B dir e n) = bcProgress T B dir e (n + 1) := by
  rw [bcRound_at (n := n) h rfl]
  have hs := blockHalves_succ T B e.rk dir h
  simp only [bcRoundAt, bcProgress, Engine.mk.injEq, true_and, and_true]
  refine ⟨by rw [hs]; rfl, by rw [hs]; rfl, ?_, ?_, ?_⟩
  · exact ofFn_set_next (fun j : Fin 17 => (blockHalves T B e.rk dir j).1) e.tl (by omega) _ (by simp [hs, feistel])
  · exact ofFn_set_next (fun j : Fin 17 => (blockHalves T B e.rk dir j).2) e.tr (by omega) _ (by simp [hs, feistel])
  · ext i hi
    rw [Vector.getElem_set, Vector.getElem_ofFn, Vector.getElem_ofFn]
    by_cases hn : n = i
    · subst hn; simp [blockF]
    · have : i < n ↔ i < n + 1 := by omega
      simp [hn, this]

/-- After n rounds (R172, R173). -/
theorem bcRounds (T : Tables) (B : Block) (dir : Direction) (e : Engine) {n : Nat} (h : n ≤ 16) :
    Nat.repeat (bcRound T) n (bcInit T B dir e) = bcProgress T B dir e n := by
  induction n with
  | zero =>
    simp only [Nat.repeat, bcInit, bcProgress, blockHalves, Engine.mk.injEq, true_and, and_true]
    refine ⟨?_, ?_, ?_⟩
    · ext j hj; rw [Vector.getElem_set, Vector.getElem_ofFn]; by_cases hz : 0 = j
      · subst hz; simp [blockHalves]
      · have : ¬ j ≤ 0 := by omega
        simp [hz, this]
    · ext j hj; rw [Vector.getElem_set, Vector.getElem_ofFn]; by_cases hz : 0 = j
      · subst hz; simp [blockHalves]
      · have : ¬ j ≤ 0 := by omega
        simp [hz, this]
    · ext i hi; simp
  | succ n ih => rw [repeat_succ, ih (by omega), bcRound_progress T B dir e (by omega)]

/-- KEXP's whole sequence in closed form (R132): round keys, halves, KV, PHASE and RND, and nothing else. -/
theorem runKexp_eq (T : Tables) (e : Engine) :
    runKexp T e = { e with
      rk := ks T e.key
      c := (ksHalves T e.key 16).1
      d := (ksHalves T e.key 16).2
      kv := true
      phase := .idle
      rnd := 16#5 } := by
  rw [runKexp, ksRounds T e (le_refl _)]
  simp only [ksProgress, Engine.mk.injEq, true_and, and_true, if_true]
  ext i hi; simp

/-- ENC's and DEC's whole sequence in closed form (R175, R176). -/
theorem runBlock_eq (T : Tables) (B : Block) (dir : Direction) (e : Engine) :
    runBlock T B dir e = { e with
      dir := dir
      tl := Vector.ofFn fun j : Fin 17 => (blockHalves T B e.rk dir j).1
      tr := Vector.ofFn fun j : Fin 17 => (blockHalves T B e.rk dir j).2
      tf := Vector.ofFn fun i : Fin 16 => blockF T B e.rk dir i
      l := (blockHalves T B e.rk dir 16).1
      r := (blockHalves T B e.rk dir 16).2
      dout := blockFn T B e.rk dir
      tv := true
      phase := .idle
      rnd := 16#5 } := by
  rw [runBlock, bcRounds T B dir e (le_refl _)]
  simp only [bcFinal, bcProgress, Engine.mk.injEq, true_and, and_true]
  refine ⟨rfl, ?_, ?_, ?_⟩
  all_goals (ext j hj : 1; simp only [Vector.getElem_ofFn]; rw [if_pos (by omega)])

end Sys2Proof.Machine
end

