-- ==== Sys2Proof/Laws/State.lean ====
section
/-! SUPPORT. One lemma per field per shared update of the state, so that no later proof unfolds a record update. -/

namespace Sys2Proof.Machine

@[simp] theorem respond_eng (st : Status) (d : Block) (s : State) : (respond st d s).eng = s.eng := rfl
@[simp] theorem respond_wdata (st : Status) (d : Block) (s : State) : (respond st d s).wdata = s.wdata := rfl
@[simp] theorem respond_rsp (st : Status) (d : Block) (s : State) : (respond st d s).rsp = some ⟨st, d⟩ := rfl
@[simp] theorem respond_moves (st : Status) (d : Block) (s : State) : (respond st d s).moves = s.moves := rfl
@[simp] theorem respond_taken (st : Status) (d : Block) (s : State) : (respond st d s).taken = s.taken := rfl

@[simp] theorem raise_eng (e : Error) (s : State) :
    (raise e s).eng = { s.eng with err := rememberError s.eng.err e } := rfl
@[simp] theorem raise_wdata (e : Error) (s : State) : (raise e s).wdata = s.wdata := rfl
@[simp] theorem raise_rsp (e : Error) (s : State) : (raise e s).rsp = some ⟨.fail e, 0#64⟩ := rfl
@[simp] theorem raise_moves (e : Error) (s : State) : (raise e s).moves = s.moves := rfl
@[simp] theorem raise_taken (e : Error) (s : State) : (raise e s).taken = s.taken := rfl

@[simp] theorem clearEngine_eng (s : State) : (clearEngine s).eng = Engine.reset := rfl
@[simp] theorem clearEngine_wdata (s : State) : (clearEngine s).wdata = s.wdata := rfl
@[simp] theorem clearEngine_rsp (s : State) : (clearEngine s).rsp = s.rsp := rfl
@[simp] theorem clearEngine_moves (s : State) : (clearEngine s).moves = s.moves := rfl
@[simp] theorem clearEngine_taken (s : State) : (clearEngine s).taken = s.taken := rfl

@[simp] theorem resetPort_eng (s : State) : (resetPort s).eng = Engine.reset := rfl
@[simp] theorem resetPort_wdata (s : State) : (resetPort s).wdata = s.wdata := rfl
@[simp] theorem resetPort_rsp (s : State) : (resetPort s).rsp = none := rfl
@[simp] theorem resetPort_moves (s : State) : (resetPort s).moves = s.moves := rfl
@[simp] theorem resetPort_taken (s : State) : (resetPort s).taken = s.taken := rfl

@[simp] theorem sample_eng (w : Block) (s : State) : (sample w s).eng = s.eng := rfl
@[simp] theorem sample_wdata (w : Block) (s : State) : (sample w s).wdata = w := rfl
@[simp] theorem sample_rsp (w : Block) (s : State) : (sample w s).rsp = s.rsp := rfl
@[simp] theorem sample_moves (w : Block) (s : State) : (sample w s).moves = s.moves := rfl
@[simp] theorem sample_taken (w : Block) (s : State) : (sample w s).taken = s.taken := rfl

@[simp] theorem takeResponse_eng (s : State) : (takeResponse s).eng = s.eng := by
  unfold takeResponse; split <;> rfl
@[simp] theorem takeResponse_wdata (s : State) : (takeResponse s).wdata = s.wdata := by
  unfold takeResponse; split <;> rfl
@[simp] theorem takeResponse_rsp (s : State) : (takeResponse s).rsp = none := by
  unfold takeResponse; split <;> simp_all
@[simp] theorem takeResponse_moves (s : State) : (takeResponse s).moves = s.moves := by
  unfold takeResponse; split <;> rfl
@[simp] theorem takeResponse_taken (s : State) : (takeResponse s).taken = s.taken ++ s.rsp.toList := by
  unfold takeResponse; split <;> simp_all

/-- Taking where nothing is presented changes nothing. -/
theorem takeResponse_of_none {s : State} (h : s.rsp = none) : takeResponse s = s := by
  simp [takeResponse, h]

@[simp] theorem mapNext_next (g : State → State) (s : State) : mapNext g (.next s) = .next (g s) := rfl

/-- An outcome is changed into a next state only from a next state. -/
theorem mapNext_eq_next {g : State → State} {r : Result} {t : State} :
    mapNext g r = .next t ↔ ∃ s, r = .next s ∧ g s = t := by
  cases r <;> simp [mapNext]

/-- Remembering an error loses none. -/
theorem rememberError_keeps (err : BitVec 5) (e : Error) : err &&& rememberError err e = err := by
  ext i hi; simp [rememberError]; tauto

end Sys2Proof.Machine
end

