-- ==== Sys2Proof/Laws/Exec.lean ====
section
/-! SUPPORT. What a command, a micro-step and a step can do, said once: every later proof goes by these cases instead of
unfolding `execOn` or `stepOn`. -/

namespace Sys2Proof.Machine

/-- The engine a successful command leaves. -/
def okEngine (T : Tables) (i : Instr) (s : State) : Engine :=
  match i with
  | .nop => s.eng
  | .ldkey => { s.eng with key := s.wdata, kl := true, kv := false }
  | .kexp => runKexp T s.eng
  | .enc => runBlock T s.wdata .enc s.eng
  | .dec => runBlock T s.wdata .dec s.eng
  | .rdrk _ => s.eng
  | .rdtl _ => s.eng
  | .rdtr _ => s.eng
  | .rdtf _ => s.eng
  | .rdst => s.eng
  | .clr => Engine.reset

/-- KEXP with a loaded key. -/
theorem execOn_kexp_ok {T : Tables} {s : State} (h : s.eng.kl = true) :
    execOn T .kexp s = .next (respond .ok 0#64 { s with eng := runKexp T s.eng }) := by
  simp [execOn, execKexpOn, h]

/-- KEXP without a key. -/
theorem execOn_kexp_nokey {T : Tables} {s : State} (h : s.eng.kl = false) : execOn T .kexp s = .next (raise .nokey s) := by
  simp [execOn, execKexpOn, h]

/-- ENC with valid round keys. -/
theorem execOn_enc_ok {T : Tables} {s : State} (h : s.eng.kv = true) :
    execOn T .enc s = .next (respond .ok (runBlock T s.wdata .enc s.eng).dout
      { s with eng := runBlock T s.wdata .enc s.eng }) := by
  simp [execOn, execEncOn, blockCommand, h]

/-- DEC with valid round keys. -/
theorem execOn_dec_ok {T : Tables} {s : State} (h : s.eng.kv = true) :
    execOn T .dec s = .next (respond .ok (runBlock T s.wdata .dec s.eng).dout
      { s with eng := runBlock T s.wdata .dec s.eng }) := by
  simp [execOn, execDecOn, blockCommand, h]

/-- ENC and DEC without valid round keys. -/
theorem execOn_block_nosched {T : Tables} {s : State} (h : s.eng.kv = false) :
    execOn T .enc s = .next (raise .nosched s) ∧ execOn T .dec s = .next (raise .nosched s) := by
  simp [execOn, execEncOn, execDecOn, blockCommand, h]

/-- A command fails with one error and no other effect, or succeeds and leaves `okEngine`. Either way it completes. -/
theorem execOn_cases (T : Tables) (i : Instr) (s : State) :
    (∃ e, execOn T i s = .next (raise e s)) ∨
    (∃ d, execOn T i s = .next (respond .ok d { s with eng := okEngine T i s })) := by
  cases i with
  | nop => exact .inr ⟨_, rfl⟩
  | ldkey => exact .inr ⟨_, rfl⟩
  | kexp =>
    cases h : s.eng.kl
    · exact .inl ⟨_, execOn_kexp_nokey h⟩
    · exact .inr ⟨_, execOn_kexp_ok h⟩
  | enc =>
    cases h : s.eng.kv
    · exact .inl ⟨_, (execOn_block_nosched h).1⟩
    · exact .inr ⟨_, execOn_enc_ok h⟩
  | dec =>
    cases h : s.eng.kv
    · exact .inl ⟨_, (execOn_block_nosched h).2⟩
    · exact .inr ⟨_, execOn_dec_ok h⟩
  | rdrk idx =>
    simp only [execOn, execRdrk, okEngine]
    repeat' split
    · exact .inr ⟨_, rfl⟩
    all_goals exact .inl ⟨_, rfl⟩
  | rdtl idx =>
    simp only [execOn, execRdtl, traceRead, okEngine]
    repeat' split
    · exact .inr ⟨_, rfl⟩
    all_goals exact .inl ⟨_, rfl⟩
  | rdtr idx =>
    simp only [execOn, execRdtr, traceRead, okEngine]
    repeat' split
    · exact .inr ⟨_, rfl⟩
    all_goals exact .inl ⟨_, rfl⟩
  | rdtf idx =>
    simp only [execOn, execRdtf, traceRead, okEngine]
    repeat' split
    · exact .inr ⟨_, rfl⟩
    all_goals exact .inl ⟨_, rfl⟩
  | rdst => exact .inr ⟨_, rfl⟩
  | clr => exact .inr ⟨_, rfl⟩

/-- A successful KEXP or block command had its precondition. -/
theorem execOn_ok_precondition {T : Tables} {i : Instr} {s : State} {d : Block}
    (h : execOn T i s = .next (respond .ok d { s with eng := okEngine T i s })) :
    (i = .kexp → s.eng.kl = true) ∧ (i = .enc ∨ i = .dec → s.eng.kv = true) := by
  have ne : ∀ e u, raise e s ≠ respond .ok d u := fun e u hc => by
    have := congrArg State.rsp hc; simp at this
  refine ⟨?_, ?_⟩
  · rintro rfl
    by_contra hk
    rw [execOn_kexp_nokey (by simpa using hk)] at h
    exact ne _ _ (Host.Outcome.next.inj h)
  · rintro (rfl | rfl) <;> by_contra hk
    · rw [(execOn_block_nosched (by simpa using hk)).1] at h
      exact ne _ _ (Host.Outcome.next.inj h)
    · rw [(execOn_block_nosched (by simpa using hk)).2] at h
      exact ne _ _ (Host.Outcome.next.inj h)

/-- An accepted word runs the command it decodes to, or fails with ILLCMD. -/
theorem issueOn_cases (T : Tables) (w : CmdWord) (d : Block) (s : State) :
    (∃ i, decode w = .ok i ∧ issueOn T w d s = execOn T i (sample d s)) ∨
    (∃ why, decode w = .error why ∧ issueOn T w d s = .next (raise .illcmd (sample d s))) := by
  unfold issueOn
  cases h : decode w with
  | ok i => exact .inl ⟨i, rfl, rfl⟩
  | error why => exact .inr ⟨why, rfl, rfl⟩

/-- A command begun at micro-step grain makes its first micro-step, if it has a sequence and its check passes; otherwise it
does what it does as a whole. -/
theorem beginInstr_cases (T : Tables) (i : Instr) (s : State) :
    (i = .kexp ∧ s.eng.kl = true ∧ beginInstr T i s = .next { s with eng := ksInit T s.eng }) ∨
    (∃ dir, i = (match dir with | .enc => Instr.enc | .dec => Instr.dec) ∧ s.eng.kv = true ∧
      beginInstr T i s = .next { s with eng := bcInit T s.wdata dir s.eng }) ∨
    ((i = .kexp → s.eng.kl = false) ∧ (i = .enc ∨ i = .dec → s.eng.kv = false) ∧ beginInstr T i s = execOn T i s) := by
  cases i with
  | kexp =>
    cases h : s.eng.kl
    · exact .inr (.inr ⟨fun _ => rfl, by simp, by rw [execOn_kexp_nokey h]; simp [beginInstr, h]⟩)
    · exact .inl ⟨rfl, rfl, by simp [beginInstr, h]⟩
  | enc =>
    cases h : s.eng.kv
    · exact .inr (.inr ⟨by simp, fun _ => rfl, by rw [(execOn_block_nosched h).1]; simp [beginInstr, h]⟩)
    · exact .inr (.inl ⟨.enc, rfl, rfl, by simp [beginInstr, h]⟩)
  | dec =>
    cases h : s.eng.kv
    · exact .inr (.inr ⟨by simp, fun _ => rfl, by rw [(execOn_block_nosched h).2]; simp [beginInstr, h]⟩)
    · exact .inr (.inl ⟨.dec, rfl, rfl, by simp [beginInstr, h]⟩)
  | nop | ldkey | rdrk _ | rdtl _ | rdtr _ | rdtf _ | rdst | clr =>
    exact .inr (.inr ⟨by simp, by simp, rfl⟩)

/-- One micro-step that goes on: a KS_ROUND, with the response at the end; a BC_ROUND; or BC_FINAL with the response. -/
theorem microStep_cases {T : Tables} {s t : State} (hp : s.eng.phase ≠ .idle) (h : microStep T s = .next t) :
    (s.eng.phase = .ks ∧ s.eng.rnd.toNat < 16 ∧
      ((ksRound T s.eng).phase = .idle ∧ t = respond .ok 0#64 { s with eng := ksRound T s.eng } ∨
       (ksRound T s.eng).phase ≠ .idle ∧ t = { s with eng := ksRound T s.eng })) ∨
    (s.eng.phase = .bc ∧ s.eng.rnd.toNat < 16 ∧ t = { s with eng := bcRound T s.eng }) ∨
    (s.eng.phase = .bc ∧ s.eng.rnd.toNat = 16 ∧
      t = respond .ok (bcFinal T s.eng).dout { s with eng := bcFinal T s.eng }) := by
  unfold microStep at h
  split at h
  · contradiction
  · rename_i hks
    split at h
    · dsimp only at h
      split at h
      · exact .inl ⟨hks, ‹_›, .inl ⟨‹_›, (Host.Outcome.next.inj h).symm⟩⟩
      · exact .inl ⟨hks, ‹_›, .inr ⟨‹_›, (Host.Outcome.next.inj h).symm⟩⟩
    · cases h
  · rename_i hbc
    split at h
    · exact .inr (.inl ⟨hbc, ‹_›, (Host.Outcome.next.inj h).symm⟩)
    · split at h
      · exact .inr (.inr ⟨hbc, ‹_›, (Host.Outcome.next.inj h).symm⟩)
      · cases h

/-- One step that goes on: a reset; an idle engine's unchanged engine state; a whole command; a command's beginning; or a
micro-step. -/
theorem stepOn_cases {T : Tables} {s t : State} (h : stepOn T s = .next t) :
    (∃ ms, s.moves = .reset :: ms ∧ t = resetPort { s with moves := ms }) ∨
    (s.eng.phase = .idle ∧ ∃ ms, t = { s with moves := ms } ∨ t = takeResponse { s with moves := ms }) ∨
    (s.eng.phase = .idle ∧ s.rsp = none ∧ ∃ w d ms u, s.moves = .command w d :: ms ∧
      issueOn T w d { s with moves := ms } = .next u ∧ t = takeResponse u) ∨
    (s.eng.phase = .idle ∧ s.rsp = none ∧ ∃ w d ms, s.moves = .start w d :: ms ∧
      beginWord T w d { s with moves := ms } = .next t) ∨
    (s.eng.phase ≠ .idle ∧ ∃ ms, microStep T { s with moves := ms } = .next t) := by
  have busy : s.eng.phase ≠ .idle → busyMove T s = .next t →
      (∃ ms, s.moves = .reset :: ms ∧ t = resetPort { s with moves := ms }) ∨
      (s.eng.phase ≠ .idle ∧ ∃ ms, microStep T { s with moves := ms } = .next t) := by
    intro hp h
    unfold busyMove at h
    split at h
    case h_6 => exact .inl ⟨_, ‹_›, (Host.Outcome.next.inj h).symm⟩
    case h_5 => exact .inr ⟨hp, _, h⟩
    all_goals exact .inr ⟨hp, s.moves, h⟩
  unfold stepOn at h
  split at h
  · rename_i hp
    unfold idleMove at h
    split at h
    · exact .inr (.inl ⟨hp, s.moves, .inl (Host.Outcome.next.inj h).symm⟩)
    · split at h
      · exact .inr (.inl ⟨hp, s.moves, .inr (Host.Outcome.next.inj h).symm⟩)
      · obtain ⟨u, hu, ht⟩ := mapNext_eq_next.mp h
        exact .inr (.inr (.inl ⟨hp, by simpa using ‹¬ s.rsp.isSome = true›, _, _, _, u, ‹_›, hu, ht.symm⟩))
    · split at h
      · exact .inr (.inl ⟨hp, s.moves, .inr (Host.Outcome.next.inj h).symm⟩)
      · exact .inr (.inr (.inr (.inl ⟨hp, by simpa using ‹¬ s.rsp.isSome = true›, _, _, _, ‹_›, h⟩)))
    · exact .inr (.inl ⟨hp, _, .inr (Host.Outcome.next.inj h).symm⟩)
    · exact .inr (.inl ⟨hp, _, .inl (Host.Outcome.next.inj h).symm⟩)
    · exact .inl ⟨_, ‹_›, (Host.Outcome.next.inj h).symm⟩
  · rcases busy (by simp [*]) h with h | h
    · exact .inl h
    · exact .inr (.inr (.inr (.inr h)))
  · rcases busy (by simp [*]) h with h | h
    · exact .inl h
    · exact .inr (.inr (.inr (.inr h)))

/-! `exec`, `issue` and `step` are the same functions at the model's tables. -/

theorem execOn_tables (i : Instr) (s : State) : execOn tables i s = exec i s := by
  cases i <;> rfl

theorem issueOn_tables (w : CmdWord) (d : Block) (s : State) : issueOn tables w d s = issue w d s := rfl

theorem stepOn_tables (s : State) : stepOn tables s = step s := rfl

/-- A command that does not read the tables does the same over all of them. -/
theorem execOn_eq_exec {T : Tables} {i : Instr} (hk : i ≠ .kexp) (he : i ≠ .enc) (hd : i ≠ .dec) (s : State) :
    execOn T i s = exec i s := by
  cases i <;> first | contradiction | rfl

/-- `execOn_cases` for `exec`. -/
theorem exec_cases (i : Instr) (s : State) :
    (∃ e, exec i s = .next (raise e s)) ∨
    (∃ d, exec i s = .next (respond .ok d { s with eng := okEngine tables i s })) := by
  rw [← execOn_tables]; exact execOn_cases tables i s

/-- KEXP with a loaded key, for `exec`. -/
theorem exec_kexp_ok {s : State} (h : s.eng.kl = true) :
    exec .kexp s = .next (respond .ok 0#64 { s with eng := runKexp tables s.eng }) := by
  rw [← execOn_tables]; exact execOn_kexp_ok h

/-- ENC with valid round keys, for `exec`. -/
theorem exec_enc_ok {s : State} (h : s.eng.kv = true) :
    exec .enc s = .next (respond .ok (runBlock tables s.wdata .enc s.eng).dout
      { s with eng := runBlock tables s.wdata .enc s.eng }) := by
  rw [← execOn_tables]; exact execOn_enc_ok h

/-- DEC with valid round keys, for `exec`. -/
theorem exec_dec_ok {s : State} (h : s.eng.kv = true) :
    exec .dec s = .next (respond .ok (runBlock tables s.wdata .dec s.eng).dout
      { s with eng := runBlock tables s.wdata .dec s.eng }) := by
  rw [← execOn_tables]; exact execOn_dec_ok h

end Sys2Proof.Machine
end

