-- ==== Sys2Proof/Laws/HostDriver.lean ====
section
/-! SUPPORT. What an idle engine does with the host's transactions: one command, a key, a message of blocks. Later proofs
about the host software cite these and unfold neither `step` nor `runSteps`. -/

namespace Sys2Proof.Machine

/-- One transaction on an idle engine (R83). -/
theorem step_command {T : Tables} {s : State} {w : CmdWord} {d : Block} {ms : List HostMove} (hp : s.eng.phase = .idle)
    (hn : s.rsp = none) (hm : s.moves = .command w d :: ms) :
    stepOn T s = mapNext takeResponse (issueOn T w d { s with moves := ms }) := by
  simp [stepOn, idleMove, hp, hn, hm]

/-- A transaction whose word decodes and whose command succeeds. -/
theorem step_command_ok {T : Tables} {s u : State} {w : CmdWord} {d : Block} {ms : List HostMove} {i : Instr}
    (hp : s.eng.phase = .idle) (hn : s.rsp = none) (hm : s.moves = .command w d :: ms) (hd : decode w = .ok i)
    (hx : execOn T i (sample d { s with moves := ms }) = .next u) : stepOn T s = .next (takeResponse u) := by
  rw [step_command hp hn hm]
  simp [issueOn, hd, hx]

/-- Running one step, then the rest. -/
theorem runSteps_succ {T : Tables} {n : Nat} {s t : State} (h : stepOn T s = .next t) : runSteps T (n + 1) s = runSteps T n t := by
  simp [runSteps, h]

/-- ENC or DEC as a command. -/
def blockInstr : Direction → Instr
  | .enc => .enc
  | .dec => .dec

/-- ENC and DEC with valid round keys, in closed form. -/
theorem execOn_block {T : Tables} {s : State} (dir : Direction) (h : s.eng.kv = true) :
    execOn T (blockInstr dir) s = .next (respond .ok (blockFn T s.wdata s.eng.rk dir)
      { s with eng := runBlock T s.wdata dir s.eng }) := by
  cases dir
  · rw [blockInstr, execOn_enc_ok h, runBlock_eq]
  · rw [blockInstr, execOn_dec_ok h, runBlock_eq]

theorem decode_blockInstr (dir : Direction) : decode (encode (blockInstr dir)) = .ok (blockInstr dir) := by
  cases dir <;> rfl

/-- The state a block command leaves, less its response, with the rest of the message still to send. -/
def runBlockState (T : Tables) (dir : Direction) (b : Block) (bs : List Block) (s : State) : State :=
  { s with
    eng := runBlock T b dir s.eng
    wdata := b
    moves := bs.map fun b => issueMove (blockInstr dir) b }

/-- A message of blocks on an idle engine with valid round keys: one response a block, in order, the blocks independent;
the engine is idle again and its round keys are the same (R181). -/
theorem runSteps_blocks (T : Tables) (dir : Direction) (bs : List Block) (s : State) (hp : s.eng.phase = .idle) (hn : s.rsp = none)
    (hk : s.eng.kv = true) (hm : s.moves = bs.map fun b => issueMove (blockInstr dir) b) :
    ∃ t, runSteps T bs.length s = .next t ∧ t.eng.phase = .idle ∧ t.rsp = none ∧
      t.taken = s.taken ++ bs.map fun b => ⟨.ok, blockFn T b s.eng.rk dir⟩ := by
  induction bs generalizing s with
  | nil => exact ⟨s, rfl, hp, hn, by simp⟩
  | cons b bs ih =>
    have hx : execOn T (blockInstr dir) (sample b { s with moves := bs.map fun b => issueMove (blockInstr dir) b }) =
        .next (respond .ok (blockFn T b s.eng.rk dir) (runBlockState T dir b bs s)) := execOn_block dir hk
    have hs := step_command_ok hp hn hm (decode_blockInstr dir) hx
    have facts := fun u (hu : u = takeResponse (respond .ok (blockFn T b s.eng.rk dir) (runBlockState T dir b bs s))) =>
      ih u (by simp [hu, runBlockState, runBlock_eq]) (by simp [hu]) (by simp [hu, runBlockState, runBlock_eq, hk])
        (by simp [hu, runBlockState])
    obtain ⟨t, ht, htp, htn, htt⟩ := facts _ rfl
    refine ⟨t, by rw [List.length_cons, runSteps_succ hs]; exact ht, htp, htn, ?_⟩
    simp [htt, runBlockState, runBlock_eq]

/-- LDKEY k on an idle engine (R131). -/
theorem step_ldkey {T : Tables} {s : State} {k : Block} {ms : List HostMove} (hp : s.eng.phase = .idle) (hn : s.rsp = none)
    (hm : s.moves = issueMove .ldkey k :: ms) :
    stepOn T s = .next { s with
      eng := { s.eng with key := k, kl := true, kv := false }
      wdata := k
      rsp := none
      moves := ms
      taken := s.taken ++ [⟨.ok, 0#64⟩] } := by
  rw [step_command_ok hp hn hm (show decode (encode .ldkey) = .ok .ldkey by rfl) rfl]
  rfl

/-- KEXP on an idle engine with a key (R132). -/
theorem step_kexp {T : Tables} {s : State} {d : Block} {ms : List HostMove} (hp : s.eng.phase = .idle) (hn : s.rsp = none)
    (hk : s.eng.kl = true) (hm : s.moves = issueMove .kexp d :: ms) :
    stepOn T s = .next { s with
      eng := runKexp T s.eng
      wdata := d
      rsp := none
      moves := ms
      taken := s.taken ++ [⟨.ok, 0#64⟩] } := by
  rw [step_command_ok hp hn hm (show decode (encode .kexp) = .ok .kexp by rfl) (execOn_kexp_ok hk)]
  simp [takeResponse, respond, sample]

/-- LDKEY k and KEXP on an idle engine, then the rest: the round keys are KS(k) and valid (R212). -/
theorem runSteps_setKey (T : Tables) (k : Block) (ms : List HostMove) (n : Nat) (s : State) (hp : s.eng.phase = .idle)
    (hn : s.rsp = none) (hm : s.moves = setKey k ++ ms) :
    ∃ t, runSteps T (n + 2) s = runSteps T n t ∧ t.eng.phase = .idle ∧ t.rsp = none ∧ t.eng.kv = true ∧
      t.eng.rk = ks T k ∧ t.moves = ms ∧ t.taken = s.taken ++ [⟨.ok, 0#64⟩, ⟨.ok, 0#64⟩] := by
  have facts := fun u (hu : u = ({ s with
      eng := { s.eng with key := k, kl := true, kv := false }
      wdata := k
      rsp := none
      moves := issueMove .kexp 0#64 :: ms
      taken := s.taken ++ [⟨.ok, 0#64⟩] } : State)) =>
    step_kexp (T := T) (s := u) (d := 0#64) (ms := ms) (by rw [hu]; exact hp) (by rw [hu]) (by rw [hu]) (by rw [hu])
  rw [runSteps_succ (step_ldkey (T := T) (ms := issueMove .kexp 0#64 :: ms) hp hn hm), runSteps_succ (facts _ rfl)]
  exact ⟨_, rfl, by simp [runKexp_eq], rfl, by simp [runKexp_eq], by simp [runKexp_eq], rfl, by simp⟩

/-- Read data of responses that are all OK. -/
theorem okData_ok (ds : List Block) : okData (ds.map fun d => ⟨.ok, d⟩) = some ds := by
  induction ds with
  | nil => rfl
  | cons d ds ih => simp [okData, ih]

/-- A key and a message of blocks on an idle engine: the images of the blocks under BlockFn with the round keys KS(k), in
order, and an idle engine (R219, R220). -/
theorem sendMessage_blocks (T : Tables) (dir : Direction) (s : State) (k : Block) (bs : List Block) (hp : s.eng.phase = .idle)
    (hn : s.rsp = none) :
    ∃ t, sendMessage T s k (bs.map fun b => issueMove (blockInstr dir) b) =
        some (t, bs.map fun b => blockFn T b (ks T k) dir) ∧
      t.eng.phase = .idle ∧ t.rsp = none := by
  obtain ⟨u, h1, h2, h3, h4, h5, h6, h7⟩ := runSteps_setKey T k (bs.map fun b => issueMove (blockInstr dir) b) bs.length
    { s with moves := setKey k ++ bs.map fun b => issueMove (blockInstr dir) b } hp hn rfl
  obtain ⟨t, g1, g2, g3, g4⟩ := runSteps_blocks T dir bs u h2 h3 h4 h6
  refine ⟨t, ?_, g2, g3⟩
  have hl : (setKey k ++ bs.map fun b => issueMove (blockInstr dir) b).length = bs.length + 2 := by simp [setKey]
  have hc : converse T s (setKey k ++ bs.map fun b => issueMove (blockInstr dir) b) =
      some (t, ([0#64, 0#64] ++ bs.map fun b => blockFn T b (ks T k) dir).map fun d => ⟨.ok, d⟩) := by
    unfold converse
    rw [hl, h1, g1]
    simp [g4, h7, h5, Function.comp_def]
  unfold sendMessage
  rw [hc]
  simp only [Option.bind_eq_bind, Option.bind_some, okData_ok]
  simp

end Sys2Proof.Machine
end

