-- ==== Sys2Proof/Tests/Slice0.lean ====
section
/-! SUPPORT. Tests of single definitions, each expected value from the spec's vectors (95_test_vectors.md, named at each
test) or from the rule cited; and a witness that meets the hypotheses of every statement that has hypotheses. -/

namespace Sys2Proof.Tests

open Sys2Proof Sys2Proof.Machine

-- One proof at a time: each evaluation holds a thread with a large stack.
set_option Elab.async false

/-! ### WellFormed: an index above 31 does not fit CMD[8:4] (R72) -/

theorem test_wf_rdrk : (Instr.rdrk 31).wellFormed = true ∧ (Instr.rdrk 32).wellFormed = false := by decide
theorem test_wf_rdtl : (Instr.rdtl 31).wellFormed = true ∧ (Instr.rdtl 32).wellFormed = false := by decide
theorem test_wf_rdtr : (Instr.rdtr 31).wellFormed = true ∧ (Instr.rdtr 32).wellFormed = false := by decide
theorem test_wf_rdtf : (Instr.rdtf 31).wellFormed = true ∧ (Instr.rdtf 32).wellFormed = false := by decide

/-! ### Decoding: words written out from CMD[15:9], CMD[8:4], CMD[3:0] (2.6) -/

theorem test_decode_nop : decode 0b0000000000000000#16 = .ok .nop := by decide
theorem test_decode_ldkey : decode 0b0000000000000001#16 = .ok .ldkey := by decide
theorem test_decode_kexp : decode 0b0000000000000010#16 = .ok .kexp := by decide
theorem test_decode_enc : decode 0b0000000000000011#16 = .ok .enc := by decide
theorem test_decode_dec : decode 0b0000000000000100#16 = .ok .dec := by decide
theorem test_decode_rdrk : decode 0b0000000000010101#16 = .ok (.rdrk 1) ∧
    decode 0b0000000100000101#16 = .ok (.rdrk 16) ∧ decode 0b0000000111110101#16 = .ok (.rdrk 31) := by decide
theorem test_decode_rdtl : decode 0b0000000000000110#16 = .ok (.rdtl 0) ∧
    decode 0b0000000100000110#16 = .ok (.rdtl 16) := by decide
theorem test_decode_rdtr : decode 0b0000000100000111#16 = .ok (.rdtr 16) := by decide
theorem test_decode_rdtf : decode 0b0000000000011000#16 = .ok (.rdtf 1) ∧
    decode 0b0000000100001000#16 = .ok (.rdtf 16) := by decide
theorem test_decode_rdst : decode 0b0000000000001001#16 = .ok .rdst := by decide
theorem test_decode_clr : decode 0b0000000000001010#16 = .ok .clr := by decide
theorem test_decode_illegal : decode 0x000B#16 = .error .reservedOpcode ∧ decode 0x000F#16 = .error .reservedOpcode ∧
    decode 0x001A#16 = .error .upperBitsN ∧ decode 0x0100#16 = .error .upperBitsN ∧
    decode 0x8009#16 = .error .upperBitsN ∧ decode 0x0205#16 = .error .upperBitsX ∧
    decode 0xFFF5#16 = .error .upperBitsX := by decide
theorem test_decodeTableWord : decodeTableWord 16 0x01F5 = some (.rdrk 31) ∧ decodeTableWord 16 0x0205 = none := by
  decide

/-! ### Encoding and listing (R80, 2.6) -/

theorem test_encode : encode .clr = 0x000A#16 ∧ encode (.rdrk 1) = 0x0015#16 ∧ encode (.rdtr 16) = 0x0107#16 := by decide

/-- R80's two examples. -/
theorem test_assemble :
    assemble ['R', 'D', 'R', 'K', ' ', '1'] = some (0x0015#16, 0#64) ∧
    assemble ['E', 'N', 'C', ' ', '0', 'x', '0', '1', '2', '3', '4', '5', '6', '7', '8', '9', 'A', 'B', 'C', 'D', 'E', 'F']
      = some (0x0003#16, 0x0123456789ABCDEF#64) := by decide +kernel

/-! ### Primitives (2.1) -/

theorem test_permute_reversal : permute 0x80#8 #v[8, 7, 6, 5, 4, 3, 2, 1] = 0x01#8 := by decide
theorem test_permute_expansion : permute 0b1010#4 #v[1, 1, 2, 2, 3, 3, 4, 4] = 0b11001100#8 := by decide
theorem test_rotL : rotL 0xF0CCAAF#28 1 = 0xE19955F#28 ∧ rotL 0x8000001#28 2 = 0x0000006#28 := by decide
theorem test_permute_ip_wire : permute 0x8000000000000000#64 tables.ip = 0x0000000001000000#64 := by decide +kernel
theorem test_permute_pc1_wire : permute 0x0200000000000000#64 tables.pc1 = 0x00000000100000#56 := by decide +kernel
theorem test_sboxLookup_first : sboxLookup tables 0 0b011000#6 = 5#4 ∧ sboxLookup tables 3 0b111010#6 = 2#4 := by
  decide +kernel
theorem test_sboxLookup_corners : sboxLookup tables 7 0b000001#6 = 1#4 ∧ sboxLookup tables 7 0b111111#6 = 11#4 := by
  decide +kernel

/-! ### Round function: V1, round 1, step by step (2.3) -/

theorem test_expand : expand tables 0xF0AAF0AA#32 = 0x7A15557A1555#48 := by decide +kernel
theorem test_substitute : substitute tables 0x6117BA866527#48 = 0x5C82B597#32 := by decide +kernel
theorem test_roundF : roundF tables 0xF0AAF0AA#32 0x1B02EFFC7072#48 = 0x234AA9BB#32 := by decide +kernel

/-! ### States for the command tests -/

/-- The reset state with a key loaded (V1). -/
def loaded : State :=
  { State.reset with eng := { State.reset.eng with key := 0x133457799BBCDFF1#64, kl := true } }

/-- The reset state with valid round keys: those of the all-ones key, all ones (V8). -/
def keyed : State :=
  { State.reset with
    eng := { State.reset.eng with
      key := 0xFFFFFFFFFFFFFFFF#64
      kl := true
      rk := Vector.replicate 16 0xFFFFFFFFFFFF#48
      kv := true } }

/-- A state with a trace but no valid round keys; entry 16 of each trace file differs from the others. -/
def traced : State :=
  { loaded with
    eng := { loaded.eng with
      tl := (Vector.replicate 17 0#32).set 16 0x43423234#32
      tr := (Vector.replicate 17 0#32).set 16 0x0A4CD995#32
      tf := (Vector.replicate 16 0#32).set 15 0xC8C04F98#32
      dir := .dec
      tv := true } }

/-- In the key sequence after n rounds. -/
def inKs (n : Nat) : State :=
  { loaded with eng := { loaded.eng with phase := .ks, rnd := BitVec.ofNat 5 n } }

/-- In a block sequence after n rounds. -/
def inBc (dir : Direction) (n : Nat) : State :=
  { keyed with eng := { keyed.eng with phase := .bc, rnd := BitVec.ofNat 5 n, dir := dir } }

/-- The state in which the host issues one command as a transaction. -/
def issuing (s : State) (w : CmdWord) (d : Block) : State := { s with moves := [.command w d] }

/-- The next state, if there is one. -/
def nextOf : Result → Option State
  | .next t => some t
  | .fault _ => none
  | .refused _ => none

/-- The response, and the engine's ERR, after one step. -/
def outcome (s : State) : Option (List Response × BitVec 5) := (nextOf (step s)).map fun t => (t.taken, t.eng.err)

/-! ### Commands, one step each (2.5) -/

theorem test_nop : outcome (issuing State.reset 0x0000#16 1#64) = some ([⟨.ok, 0#64⟩], 0#5) := by decide +kernel
theorem test_ldkey : nextOf (step (issuing keyed 0x0001#16 0x133457799BBCDFF1#64)) = some { keyed with
    eng := { keyed.eng with key := 0x133457799BBCDFF1#64, kv := false }
    wdata := 0x133457799BBCDFF1#64
    taken := [⟨.ok, 0#64⟩] } := by decide +kernel
theorem test_kexp_nokey : outcome (issuing State.reset 0x0002#16 0#64) = some ([⟨.fail .nokey, 0#64⟩], 0b00100#5) := by
  decide +kernel
/-- V1: the first and the last round key. -/
theorem test_kexp : ((nextOf (exec .kexp loaded)).map fun t => (t.eng.rk[0], t.eng.rk[15], t.eng.c, t.eng.rnd)) =
    some (0x1B02EFFC7072#48, 0xCB3D8B0E17F5#48, 0xF0CCAAF#28, 16#5) := by
  decide +kernel
/-- V8: the all-ones key on the all-zero block. -/
theorem test_enc : outcome (issuing keyed 0x0003#16 0#64) = some ([⟨.ok, 0xCAAAAF4DEAF1DBAE#64⟩], 0#5) := by decide +kernel
theorem test_enc_nosched : outcome (issuing loaded 0x0003#16 0#64) = some ([⟨.fail .nosched, 0#64⟩], 0b01000#5) := by
  decide +kernel
/-- V8 with R138: DEC undoes ENC. -/
theorem test_dec : outcome (issuing keyed 0x0004#16 0xCAAAAF4DEAF1DBAE#64) = some ([⟨.ok, 0#64⟩], 0#5) := by decide +kernel
theorem test_dec_nosched : outcome (issuing State.reset 0x0004#16 0#64) = some ([⟨.fail .nosched, 0#64⟩], 0b01000#5) := by
  decide +kernel
theorem test_rdrk : outcome (issuing keyed 0x0105#16 0#64) = some ([⟨.ok, 0x0000FFFFFFFFFFFF#64⟩], 0#5) := by decide +kernel
/-- The index is checked before KV (R243). -/
theorem test_rdrk_errors : outcome (issuing State.reset 0x0005#16 0#64) = some ([⟨.fail .badidx, 0#64⟩], 0b00010#5) ∧
    outcome (issuing State.reset 0x0015#16 0#64) = some ([⟨.fail .nosched, 0#64⟩], 0b01000#5) := by decide +kernel
theorem test_rdtl : outcome (issuing traced 0x0106#16 0#64) = some ([⟨.ok, 0x0000000043423234#64⟩], 0#5) := by decide +kernel
theorem test_rdtl_errors : outcome (issuing State.reset 0x0116#16 0#64) = some ([⟨.fail .badidx, 0#64⟩], 0b00010#5) ∧
    outcome (issuing State.reset 0x0006#16 0#64) = some ([⟨.fail .notrace, 0#64⟩], 0b10000#5) := by decide +kernel
theorem test_rdtr : outcome (issuing traced 0x0107#16 0#64) = some ([⟨.ok, 0x000000000A4CD995#64⟩], 0#5) := by decide +kernel
theorem test_rdtr_errors : outcome (issuing State.reset 0x0107#16 0#64) = some ([⟨.fail .notrace, 0#64⟩], 0b10000#5) := by
  decide +kernel
theorem test_rdtf : outcome (issuing traced 0x0108#16 0#64) = some ([⟨.ok, 0x00000000C8C04F98#64⟩], 0#5) := by decide +kernel
theorem test_rdtf_errors : outcome (issuing State.reset 0x0008#16 0#64) = some ([⟨.fail .badidx, 0#64⟩], 0b00010#5) ∧
    outcome (issuing State.reset 0x0018#16 0#64) = some ([⟨.fail .notrace, 0#64⟩], 0b10000#5) := by decide +kernel
theorem test_rdst : outcome (issuing traced 0x0009#16 0#64) = some ([⟨.ok, 0x000000000000000D#64⟩], 0#5) ∧
    outcome (issuing keyed 0x0009#16 0#64) = some ([⟨.ok, 0x0000000000000003#64⟩], 0#5) := by decide +kernel
theorem test_clr : (nextOf (exec .clr traced)).map State.eng = some State.reset.eng := by decide +kernel
theorem test_illegal : outcome (issuing State.reset 0xFFFF#16 0#64) = some ([⟨.fail .illcmd, 0#64⟩], 0b00001#5) := by
  decide +kernel
theorem test_withFetchWord : nextOf (step (State.reset.withFetchWord 16 0x0009)) =
    some { State.reset with taken := [⟨.ok, 0#64⟩] } := by decide +kernel

/-! ### Micro-steps (P5) -/

theorem test_ks_init : ((nextOf (step { loaded with moves := [.start 0x0002#16 0#64] })).map
    fun t => (t.eng.c, t.eng.d, t.eng.phase, t.rsp)) = some (0xF0CCAAF#28, 0x556678F#28, .ks, none) := by
  decide +kernel
theorem test_bc_init : ((nextOf (step { keyed with moves := [.start 0x0003#16 0x0123456789ABCDEF#64] })).map
    fun t => (t.eng.l, t.eng.r, t.eng.phase, t.eng.rnd)) = some (0xCC00CCFF#32, 0xF0AAF0AA#32, .bc, 0#5) := by
  decide +kernel

/-! ### Host software (2.7) -/

theorem test_keyOfSecret : keyOfSecret ['A', 'B', ' ', 'C'] = 0x4142204300000000#64 ∧
    keyOfSecret ['1', '2', '3', '4', '5', '6', '7', '8', '9'] = 0x3132333435363738#64 := by decide +kernel
theorem test_textBlocks : textBlocks ['H', 'E', 'L', 'L', 'O'] = [0x48454C4C4F000000#64] ∧ textBlocks [] = [0#64] := by
  decide +kernel
theorem test_hexToBits : (hexToBits defaultWs ['F', 'F']).map (cutBits 64) = some [0xFF#64] ∧
    hexToBits defaultWs ['A', 'B', 'C'] = none ∧ hexToBits defaultWs ['4', '3', ' ', '1', '9', 'A'] = none := by
  decide +kernel
theorem test_bitsToHex : bitsToHex (bitsOf 0x0319DE347352D131#64) =
    ['0', '3', '1', '9', 'D', 'E', '3', '4', '7', '3', '5', '2', 'D', '1', '3', '1'] := by decide +kernel
theorem test_bitsToText : bitsToText defaultWs (bitsOf 0x48454C4C4F000000#64) = some ['H', 'E', 'L', 'L', 'O'] ∧
    bitsToText defaultWs (bitsOf 0xA2851D1CA8133C18#64) = none := by decide +kernel
theorem test_responseLine : responseLine (.rdrk 1) 0#64 ⟨.ok, 0x00001B02EFFC7072#64⟩ =
    ['R', 'D', 'R', 'K', ' ', '1', ' ', '-', '>', ' ', 'O', 'K', ',', ' ', '0', 'x', '0', '0', '0', '0', '1', 'B', '0',
      '2', 'E', 'F', 'F', 'C', '7', '0', '7', '2'] := by decide +kernel

/-! ### Witnesses: for every statement with hypotheses, values that meet them together -/

theorem witness_DecodeAfterEncode : (Instr.rdrk 0).wellFormed = true ∧ (Instr.rdtl 31).wellFormed = true ∧
    Instr.clr.wellFormed = true := by decide
theorem witness_EncodeAfterDecode : decode 0x01F8#16 = .ok (.rdtf 31) := by decide
theorem witness_IllegalWords : decode 0x000B#16 = .error .reservedOpcode ∧ decode 0x0010#16 = .error .upperBitsN ∧
    decode 0x0205#16 = .error .upperBitsX := by decide
theorem witness_AssembleListing : (Instr.rdtr 31).wellFormed = true ∧ Instr.ldkey.wellFormed = true := by decide
theorem witness_words : decode 0x0000#16 = .ok .nop ∧ decode 0x0001#16 = .ok .ldkey ∧ decode 0x0002#16 = .ok .kexp ∧
    decode 0x0003#16 = .ok .enc ∧ decode 0x0004#16 = .ok .dec ∧ decode 0x0009#16 = .ok .rdst ∧
    decode 0x000A#16 = .ok .clr := by decide
theorem witness_KexpEffect : loaded.eng.kl = true ∧ State.reset.eng.kl = false := by decide
theorem witness_EncEffect : keyed.eng.kv = true ∧ loaded.eng.kv = false := by decide
theorem witness_DecEffect : keyed.eng.kv = true ∧ loaded.eng.kv = false := by decide
/-- Each clause at both ends of its range. -/
theorem witness_RdrkEffect : 31 ≤ 31 ∧ (0 : Fin 16).val + 1 = 1 ∧ (15 : Fin 16).val + 1 = 16 ∧ keyed.eng.kv = true ∧
    (0 = 0 ∨ 17 ≤ 0) ∧ (17 = 0 ∨ 17 ≤ 17) ∧ 1 ≤ 1 ∧ 1 ≤ 16 ∧ 16 ≤ 16 ∧ loaded.eng.kv = false := by decide
theorem witness_RdtlEffect : 31 ≤ 31 ∧ (0 : Fin 17).val = 0 ∧ (16 : Fin 17).val = 16 ∧ traced.eng.tv = true ∧
    17 ≤ 17 ∧ 0 ≤ 16 ∧ 16 ≤ 16 ∧ keyed.eng.tv = false := by decide
theorem witness_RdtrEffect : 31 ≤ 31 ∧ (0 : Fin 17).val = 0 ∧ (16 : Fin 17).val = 16 ∧ traced.eng.tv = true ∧
    17 ≤ 17 ∧ 0 ≤ 16 ∧ 16 ≤ 16 ∧ keyed.eng.tv = false := by decide
theorem witness_RdtfEffect : 31 ≤ 31 ∧ (0 : Fin 16).val + 1 = 1 ∧ (15 : Fin 16).val + 1 = 16 ∧ traced.eng.tv = true ∧
    (0 = 0 ∨ 17 ≤ 0) ∧ (17 = 0 ∨ 17 ≤ 17) ∧ 1 ≤ 1 ∧ 1 ≤ 16 ∧ 16 ≤ 16 ∧ keyed.eng.tv = false := by decide
theorem witness_FailureOnlySetsItsErrorBit :
    exec (.rdrk 0) State.reset = .next (raise .badidx State.reset) ∧
    (raise .badidx State.reset).rsp = some ⟨.fail .badidx, 0#64⟩ ∧
    issue 0xFFFF#16 1#64 keyed = .next (raise .illcmd (sample 1#64 keyed)) ∧
    (raise .illcmd (sample 1#64 keyed)).rsp = some ⟨.fail .illcmd, 0#64⟩ := ⟨rfl, rfl, rfl, rfl⟩
/-- NOP meets the premises of every clause. -/
theorem witness_AccessMatrix : ∃ t, exec .nop keyed = .next t ∧ (∃ d, t.rsp = some ⟨.ok, d⟩) ∧
    Instr.nop ≠ .ldkey ∧ Instr.nop ≠ .kexp ∧ Instr.nop ≠ .enc ∧ Instr.nop ≠ .dec ∧ Instr.nop ≠ .clr :=
  ⟨_, rfl, ⟨_, rfl⟩, by decide, by decide, by decide, by decide, by decide⟩
theorem witness_ReadsHaveNoSideEffect : Instr.mnemonic (.rdtl 16) ∈ ["RDRK", "RDTL", "RDTR", "RDTF", "RDST"] ∧
    ∃ t d, exec (.rdtl 16) traced = .next t ∧ t.rsp = some ⟨.ok, d⟩ := ⟨by decide, _, _, rfl, rfl⟩
theorem witness_OnlyClrAndResetForget : ∃ t, step (issuing traced 0x0002#16 0#64) = .next t ∧
    (∀ ms, (issuing traced 0x0002#16 0#64).moves ≠ .reset :: ms) ∧
    ((issuing traced 0x0002#16 0#64).eng.phase = .idle → (issuing traced 0x0002#16 0#64).rsp = none →
      ∀ w d ms, (issuing traced 0x0002#16 0#64).moves = .command w d :: ms ∨
      (issuing traced 0x0002#16 0#64).moves = .start w d :: ms → decode w ≠ .ok .clr) ∧ traced.eng.kl = true ∧
    traced.eng.tv = true := by
  refine ⟨_, rfl, by simp [issuing], ?_, rfl, rfl⟩
  rintro - - w d ms (h | h)
  · have hw : 0x0002#16 = w := by injection h with h1; injection h1
    rw [← hw]; decide
  · simp [issuing] at h
/-- A CLR presented while a sequence runs, and one presented while a response is pending, meet the hypotheses too. -/
theorem witness_OnlyClrAndResetForget_unaccepted :
    (∃ t, step (issuing (inBc .dec 16) 0x000A#16 0#64) = .next t) ∧ (inBc .dec 16).eng.phase ≠ .idle ∧
    (∃ t, step (issuing { traced with rsp := some ⟨.ok, 5#64⟩ } 0x000A#16 0#64) = .next t) ∧
    ({ traced with rsp := some ⟨.ok, 5#64⟩ } : State).rsp ≠ none ∧ decode 0x000A#16 = .ok .clr :=
  ⟨⟨_, rfl⟩, by decide, ⟨_, rfl⟩, by decide, by decide⟩
theorem witness_KeyChangesOnlyByLdkeyClrReset : ∃ t, step (issuing State.reset 0x0001#16 5#64) = .next t ∧
    t.eng.key ≠ (issuing State.reset 0x0001#16 5#64).eng.key := ⟨_, rfl, by decide⟩
/-- Two states that differ in KEY, C, L and RND only. -/
theorem witness_HiddenElementsReachNoResponse :
    let other := { traced with eng := { traced.eng with key := 1#64, c := 1#28, l := 1#32, rnd := 1#5 } }
    traced ≠ other ∧ traced.wdata = other.wdata ∧ traced.eng.rk = other.eng.rk ∧ traced.eng.tl = other.eng.tl ∧
    traced.eng.tr = other.eng.tr ∧ traced.eng.tf = other.eng.tf ∧ traced.eng.kl = other.eng.kl ∧
    traced.eng.kv = other.eng.kv ∧ traced.eng.tv = other.eng.tv ∧ traced.eng.dir = other.eng.dir ∧
    traced.eng.err = other.eng.err ∧ (∃ t, exec (.rdtl 0) traced = .next t) ∧ ∃ t, exec (.rdtl 0) other = .next t :=
  ⟨by decide, rfl, rfl, rfl, rfl, rfl, rfl, rfl, rfl, rfl, rfl, ⟨_, rfl⟩, ⟨_, rfl⟩⟩
theorem witness_BlockIndependence :
    let other := { keyed with eng := { keyed.eng with key := 1#64, dout := 1#64, tv := true } }
    keyed.eng.kv = true ∧ other.eng.kv = true ∧ keyed.wdata = other.wdata ∧ keyed.eng.rk = other.eng.rk ∧
    (∃ t, exec .enc keyed = .next t) ∧ ∃ t, exec .enc other = .next t :=
  ⟨rfl, rfl, rfl, rfl, ⟨_, exec_enc_ok rfl⟩, ⟨_, exec_enc_ok rfl⟩⟩
theorem witness_PermuteGathers : InRange tables.e 32 := by decide +kernel
theorem witness_RotLRotates : 0 < 28 ∧ 27 < 28 ∧ 1 ≤ 1 ∧ 28 ≤ 28 := by decide

/-- Tables of a simple well-formed kind: identity permutations, first positions, zero S-boxes. -/
def plainTables : Tables where
  ip := Vector.ofFn fun j => j.val + 1
  fp := Vector.ofFn fun j => j.val + 1
  pc1 := Vector.ofFn fun j => j.val + 1
  pc2 := Vector.ofFn fun j => j.val + 1
  e := Vector.ofFn fun j => j.val / 2 + 1
  p := Vector.ofFn fun j => j.val + 1
  s := Vector.replicate 8 (Vector.replicate 4 (Vector.replicate 16 0#4))

/-- The hypothesis of InversePermutation, ExpansionStep and InverseLaw. -/
theorem witness_wellFormed_tables : plainTables.WellFormed := by
  have perm : ∀ n : Nat, IsPermutation (Vector.ofFn fun j : Fin n => j.val + 1) := by
    intro n
    refine ⟨fun j => by simp, fun j k h => ?_⟩
    simp at h; exact Fin.ext h
  have undo : ∀ n : Nat, UndoesEntries (Vector.ofFn fun j : Fin n => j.val + 1) (Vector.ofFn fun j : Fin n => j.val + 1) := by
    intro n j; simp
  constructor
  · exact perm 64
  · exact perm 64
  · exact undo 64
  · exact undo 64
  · intro j; simp [plainTables]; omega
  · intro j; simp [plainTables]; omega
  · intro j; simp [plainTables]; omega
  · exact ⟨1, 2, by decide, by decide +kernel, by decide +kernel⟩
  · exact perm 32

/-- R103's E row: an expansion that names one input bit 48 times is not well formed. -/
theorem test_wf_expansion : ¬ SeveralTwice (Vector.replicate 48 1) := by
  rintro ⟨a, b, -, ha, -⟩
  rw [Vector.toList_replicate, List.count_replicate] at ha
  split at ha <;> omega

theorem witness_DefaultScheduleIgnoresEighthBits :
    ∀ i, 1 ≤ i → i ≤ 64 → i % 8 ≠ 0 → srcBit 0x0101010101010101#64 i = srcBit 0#64 i := by
  intro i h1 h2 h3
  have : ∀ j : Fin 65, j.val % 8 ≠ 0 → srcBit 0x0101010101010101#64 j.val = srcBit 0#64 j.val := by decide +kernel
  exact this ⟨i, by omega⟩ h3
theorem witness_ScheduleShape : ∃ t, exec .kexp loaded = .next t ∧ t.rsp = some ⟨.ok, 0#64⟩ ∧
    (∃ u d, exec (.rdrk 16) t = .next u ∧ u.rsp = some ⟨.ok, d⟩) := by
  refine ⟨_, exec_kexp_ok rfl, rfl, ?_⟩
  simp [exec, execRdrk, RoundIndex, runKexp_eq, respond]
theorem witness_KsInitStep : loaded.eng.phase = .idle ∧ loaded.eng.kl = true ∧ loaded.rsp = none := by decide

/-- The first and the last round. -/
theorem witness_KsRoundStep : (inKs 0).eng.phase = .ks ∧ (inKs 0).eng.rnd = BitVec.ofNat 5 (0 : Fin 16).val ∧
    (inKs 15).eng.rnd = BitVec.ofNat 5 (15 : Fin 16).val ∧ (inKs 15).moves = [] := by decide
theorem witness_BcInitStep : keyed.eng.phase = .idle ∧ keyed.eng.kv = true ∧ keyed.rsp = none := by decide
theorem witness_BcRoundStep : (inBc .enc 0).eng.phase = .bc ∧ (inBc .enc 0).eng.rnd = BitVec.ofNat 5 (0 : Fin 16).val ∧
    (inBc .dec 15).eng.rnd = BitVec.ofNat 5 (15 : Fin 16).val ∧ (inBc .dec 15).moves = [] := by decide
theorem witness_BcFinalStep : (inBc .dec 16).eng.phase = .bc ∧ (inBc .dec 16).eng.rnd = 16#5 ∧
    (inBc .dec 16).moves = [] := by decide
/-- A block command's response, and another state with the same round keys whose operand is that response. -/
theorem block_then_other (dir : Direction) : ∃ (t u : State) (y : Block), exec (blockInstr dir) keyed = .next t ∧
    t.rsp = some ⟨.ok, y⟩ ∧ u.eng.kv = true ∧ u.eng.rk = t.eng.rk ∧ u.wdata = y := by
  have h := execOn_block (T := tables) (s := keyed) dir rfl
  rw [execOn_tables] at h
  refine ⟨_, { keyed with wdata := blockFn tables keyed.wdata keyed.eng.rk dir }, _, h, respond_rsp _ _ _, rfl, ?_, rfl⟩
  rw [respond_eng, runBlock_eq]
/-- The engine's clause, in both directions. -/
theorem witness_InverseLaw : keyed.eng.kv = true ∧
    (∃ (t u : State) (y : Block), exec .enc keyed = .next t ∧ t.rsp = some ⟨.ok, y⟩ ∧ u.eng.kv = true ∧
      u.eng.rk = t.eng.rk ∧ u.wdata = y) ∧
    (∃ (t u : State) (y : Block), exec .dec keyed = .next t ∧ t.rsp = some ⟨.ok, y⟩ ∧ u.eng.kv = true ∧
      u.eng.rk = t.eng.rk ∧ u.wdata = y) :=
  ⟨rfl, block_then_other .enc, block_then_other .dec⟩
theorem witness_TraceMirror : keyed.eng.kv = true ∧ ∃ (t u v : State) (y : Block), exec .enc keyed = .next t ∧
    t.rsp = some ⟨.ok, y⟩ ∧ u.eng.kv = true ∧ u.eng.rk = t.eng.rk ∧ u.wdata = y ∧ exec .dec u = .next v := by
  obtain ⟨t, u, y, h1, h2, h3, h4, h5⟩ := block_then_other .enc
  exact ⟨rfl, t, u, _, y, h1, h2, h3, h4, h5, exec_dec_ok h3⟩
theorem witness_StepRunsTheDecodedCommand : (issuing keyed 0x0009#16 0#64).eng.phase = .idle ∧
    (issuing keyed 0x0009#16 0#64).rsp = none ∧ (issuing keyed 0x0009#16 0#64).moves = [.command 0x0009#16 0#64] ∧
    decode 0x0009#16 = .ok .rdst := by decide
theorem witness_EveryCommandResponds : (issuing keyed 0xFFFF#16 0#64).eng.phase = .idle ∧
    (issuing keyed 0xFFFF#16 0#64).rsp = none ∧
    (issuing keyed 0xFFFF#16 0#64).moves = [.command 0xFFFF#16 0#64] := by decide
/-- Each of the three clauses on host moves. -/
theorem witness_BusyAcceptsNothing : (inKs 0).eng.phase ≠ .idle ∧
    (issuing (inKs 0) 0x000A#16 0#64).moves = [.command 0x000A#16 0#64] ∧
    ({ inBc .dec 16 with moves := [.take] } : State).moves = .take :: [] ∧
    ({ inBc .dec 16 with moves := [.wait] } : State).moves = .wait :: [] := by decide
/-- Each clause: a response pending, and none, with each kind of move. -/
theorem witness_PendingResponseIsHeld :
    let held := fun ms => ({ loaded with rsp := some ⟨.ok, 5#64⟩, moves := ms } : State)
    (held []).eng.phase = .idle ∧ (held []).rsp = some ⟨.ok, 5#64⟩ ∧ (held []).moves = [] ∧
    (held [.wait]).moves = .wait :: [] ∧ (held [.take]).moves = .take :: [] ∧
    (held [.command 0x000A#16 0#64]).moves = .command 0x000A#16 0#64 :: [] ∧
    (held [.start 0x0002#16 0#64]).moves = .start 0x0002#16 0#64 :: [] ∧
    loaded.eng.phase = .idle ∧ loaded.rsp = none ∧ loaded.moves = [] ∧
    ({ loaded with moves := [.take] } : State).moves = .take :: [] := by decide
theorem witness_ResetDominates : ({ inBc .enc 7 with moves := [.reset] } : State).moves = .reset :: [] := by decide
theorem witness_CommandIsItsMicroSteps : loaded.eng.phase = .idle ∧ loaded.rsp = none ∧ loaded.moves = [] ∧
    loaded.eng.kl = true ∧ keyed.eng.kv = true := by decide

/-- The invariant holds with a key loaded. -/
theorem loaded_inv (T : Tables) (ms : List HostMove) : ({ loaded with moves := ms } : State).Inv T where
  engine := by constructor <;> simp [loaded, State.reset, Engine.reset]
  busy := by simp [loaded, State.reset, Engine.reset]
  pending := by simp [loaded, State.reset]
  responses := by simp [loaded, State.reset]

/-- Both clauses: over some tables, and of `step`. -/
theorem witness_StepKeepsInvariant : (issuing loaded 0x0002#16 0#64).Inv plainTables ∧
    (∃ t, stepOn plainTables (issuing loaded 0x0002#16 0#64) = .next t) ∧ (issuing loaded 0x0002#16 0#64).Inv tables ∧
    ∃ t, step (issuing loaded 0x0002#16 0#64) = .next t :=
  ⟨loaded_inv _ _, ⟨_, step_kexp (d := 0#64) (ms := []) rfl rfl rfl rfl⟩, loaded_inv _ _, _,
    step_kexp (d := 0#64) (ms := []) rfl rfl rfl rfl⟩
theorem witness_InvariantStatesProceed : loaded.Inv plainTables ∧ loaded.Inv tables :=
  ⟨loaded_inv _ loaded.moves, loaded_inv _ loaded.moves⟩
theorem witness_ReachableStatus : loaded.Inv plainTables ∧ loaded.eng.phase = .idle ∧
    ∃ t d, exec .rdst loaded = .next t ∧ t.rsp = some ⟨.ok, d⟩ := ⟨loaded_inv _ loaded.moves, rfl, _, _, rfl, rfl⟩
theorem witness_NormalizedSecret : 8 ≤ (List.replicate 8 0x41#8).length ∧ (List.replicate 7 0x41#8).length < 8 := by
  decide
theorem witness_EncryptIsEcb : loaded.eng.phase = .idle ∧ loaded.rsp = none := by decide
/-- Each of the three ways to be malformed. -/
theorem witness_MalformedCiphertext : strip defaultWs [' '] = [] ∧ (strip defaultWs ['A', 'B', 'C']).length % 2 = 1 ∧
    ∃ ch ∈ strip defaultWs ['4', 'G'], ch ∉ ['0', '1', '2', '3', '4', '5', '6', '7', '8', '9', 'a', 'b', 'c', 'd', 'e',
      'f', 'A', 'B', 'C', 'D', 'E', 'F'] :=
  ⟨by decide, by decide, 'G', by decide, by decide⟩
/-- Digits that lack 56 bits and have both cases' own letters; results that are the bytes of a text, and, from a first byte
0x80, results that are not. -/
theorem witness_DecryptIsEcb : loaded.eng.phase = .idle ∧ loaded.rsp = none ∧ [4#4, 0xA#4] ≠ [] ∧
    [4#4, 0xA#4].length % 2 = 0 ∧
    List.Forall₂ (fun (ch : Char) (v : BitVec 4) =>
      ['0', '1', '2', '3', '4', '5', '6', '7', '8', '9', 'A', 'B', 'C', 'D', 'E', 'F'][v.toNat]? = some ch ∨
      ['0', '1', '2', '3', '4', '5', '6', '7', '8', '9', 'a', 'b', 'c', 'd', 'e', 'f'][v.toNat]? = some ch)
      (strip defaultWs [' ', '4', 'a']) [4#4, 0xA#4] ∧
    utf8Encode [Char.ofNat 0, Char.ofNat 0, Char.ofNat 0, 'J', Char.ofNat 0, Char.ofNat 0, Char.ofNat 0, Char.ofNat 0] =
      cutBits 8 (([0x4A#64].map fun b => blockFn plainTables b (ks plainTables (keyOfSecret ['K'])) .dec).flatMap
        bitsOf) ∧
    ∀ text, utf8Encode text ≠
      cutBits 8 (([0x80000000#64].map fun b => blockFn plainTables b (ks plainTables (keyOfSecret ['K'])) .dec).flatMap
        bitsOf) := by
  refine ⟨rfl, rfl, by decide, by decide, ?_, by decide +kernel, ?_⟩
  · rw [show strip defaultWs [' ', '4', 'a'] = ['4', 'a'] by decide]
    exact .cons (by decide) (.cons (by decide) .nil)
  · intro text h
    have hd := utf8Decode_utf8Encode text
    rw [h, show utf8Decode (cutBits 8 (([0x80000000#64].map fun b =>
      blockFn plainTables b (ks plainTables (keyOfSecret ['K'])) .dec).flatMap bitsOf)) = none by decide +kernel] at hd
    cases hd
theorem witness_MessageInverseLaw : plainTables.WellFormed ∧ loaded.eng.phase = .idle ∧ loaded.rsp = none ∧
    (∀ ch ∈ ['0', '1', '2', '3', '4', '5', '6', '7', '8', '9', 'A', 'B', 'C', 'D', 'E', 'F'], defaultWs ch = false) ∧
    ['H', 'I'].getLast? ≠ some (Char.ofNat 0) ∧ strip defaultWs ['H', 'I'] = ['H', 'I'] ∧
    ∃ t hex, encrypt plainTables loaded ['H', 'I'] ['K'] = (t, .text hex) := by
  refine ⟨witness_wellFormed_tables, rfl, rfl, by simp [defaultWs], by decide, by decide, ?_⟩
  obtain ⟨t, ht, -, -⟩ := sendMessage_blocks plainTables .enc loaded (keyOfSecret ['K']) (textBlocks ['H', 'I']) rfl rfl
  exact ⟨t, _, by unfold encrypt; rw [show encMsg (textBlocks ['H', 'I']) =
    (textBlocks ['H', 'I']).map fun b => issueMove (blockInstr .enc) b from rfl, ht]⟩

end Sys2Proof.Tests
end

section
/-! SUPPORT. The scope of the model (00_scope.md R8, R9): a word decodes only if it is the encoding of what it decodes to,
a transaction is `execOn` of the decoded command with its response taken, and a command begun at micro-step grain goes
through `ksProgress` or `bcProgress` to the outcome of the whole command. -/

namespace Sys2Proof

/-- A word of format N is its opcode (R71). -/
theorem encodeN_of_fields {w op : CmdWord} (hop : w.toNat % 16 = op.toNat) (hupper : w.toNat / 16 = 0) :
    encodeN op = w := by
  apply BitVec.eq_of_toNat_eq
  simp only [encodeN]
  omega

/-- A word of format X is made of its opcode and its index (R72). -/
theorem encodeX_of_fields {w op : CmdWord} (hop : w.toNat % 16 = op.toNat) (hupper : w.toNat / 512 = 0) :
    encodeX op (w.toNat / 16 % 32) = w := by
  apply BitVec.eq_of_toNat_eq
  rw [encodeX_toNat (by omega) (by omega)]
  omega

/-- A word that decodes is the encoding of the command it decodes to (R71, R72). -/
theorem encode_of_decode {w : CmdWord} {i : Instr} (h : decode w = .ok i) : encode i = w := by
  unfold decode at h
  rw [opField_toNat] at h
  split at h
  case h_6 | h_7 | h_8 | h_9 =>
    obtain ⟨hupper, rfl⟩ := decodeX_ok.mp h
    exact encodeX_of_fields (by assumption) hupper
  case h_12 => cases h
  all_goals
    obtain ⟨hupper, rfl⟩ := decodeN_ok.mp h
    exact encodeN_of_fields (by assumption) hupper

theorem decode_eq_kexp {w : CmdWord} : decode w = .ok .kexp ↔ w = 0x0002#16 :=
  ⟨fun h => (encode_of_decode h).symm, fun h => h ▸ rfl⟩

theorem decode_eq_enc {w : CmdWord} : decode w = .ok .enc ↔ w = 0x0003#16 :=
  ⟨fun h => (encode_of_decode h).symm, fun h => h ▸ rfl⟩

theorem decode_eq_dec {w : CmdWord} : decode w = .ok .dec ↔ w = 0x0004#16 :=
  ⟨fun h => (encode_of_decode h).symm, fun h => h ▸ rfl⟩

end Sys2Proof

namespace Sys2Proof.Machine

/-! ### One transaction -/

/-- Taking a response, whether or not there is one, in one equation (R83). -/
theorem takeResponse_eq (s : State) : takeResponse s = { s with rsp := none, taken := s.taken ++ s.rsp.toList } := by
  obtain ⟨eng, wdata, rsp, moves, taken⟩ := s
  cases rsp with
  | none => simp [takeResponse]
  | some r => rfl

/-- A word that decodes runs its command (R74). -/
theorem issueOn_of_decode {T : Tables} {w : CmdWord} {d : Block} {s : State} {i : Instr} (h : decode w = .ok i) :
    issueOn T w d s = execOn T i (sample d s) := by
  simp [issueOn, h]

/-- Settles O44: a transaction on a ready port is `issueOn` and then `takeResponse`. -/
theorem stepRunsTheDecodedCommand : Obligations.StepRunsTheDecodedCommand := by
  unfold Obligations.StepRunsTheDecodedCommand
  intro taken
  have transaction : ∀ (T : Tables) (s : State) (w : CmdWord) (d : Block) (ms : List HostMove) (i : Instr),
      s.eng.phase = .idle → s.rsp = none → s.moves = .command w d :: ms → decode w = .ok i →
      stepOn T s = taken (execOn T i { s with wdata := d, moves := ms }) := by
    intro T s w d ms i hp hn hm hd
    rw [step_command hp hn hm, issueOn_of_decode hd, sample]
    cases execOn T i { s with wdata := d, moves := ms } with
    | next t => exact congrArg Host.Outcome.next (takeResponse_eq t)
    | fault f => rfl
    | refused r => rfl
  refine ⟨fun s w d ms i hp hn hm hd => ⟨?_, fun T => transaction T s w d ms i hp hn hm hd⟩,
    fun s => (stepOn_tables s).symm, fun i s => (execOn_tables i s).symm,
    fun T i s hk he hd => execOn_eq_exec hk he hd s⟩
  rw [← stepOn_tables, ← execOn_tables]
  exact transaction tables s w d ms i hp hn hm hd

/-! ### The sequencer at micro-step grain -/

/-- The host's run of the machine is `runSteps` at the model's tables. -/
theorem core_run (n : Nat) (s : State) : Host.Core.run core n s = runSteps tables n s := by
  unfold core
  induction n generalizing s with
  | zero => rfl
  | succ n ih =>
    rw [Host.Core.run, runSteps, stepOn_tables]
    dsimp only
    cases step s with
    | next t => exact ih t
    | fault f => rfl
    | refused r => rfl

theorem runSteps_one (T : Tables) (s : State) : runSteps T 1 s = stepOn T s := by
  rw [runSteps]
  cases stepOn T s <;> rfl

/-- Along states that step from each to the next, a run gets as far as it has steps. -/
theorem runSteps_along {T : Tables} (p : Nat → State) (n k : Nat) (h : ∀ m < n, stepOn T (p m) = .next (p (m + 1))) :
    runSteps T (n + k) (p 0) = runSteps T k (p n) := by
  induction n generalizing k with
  | zero => rw [Nat.zero_add]
  | succ n ih =>
    rw [Nat.add_right_comm, Nat.add_assoc, ih (k + 1) fun m hm => h m (by omega), runSteps_succ (h n (by omega))]

/-- A word begun on a ready port (R83). -/
theorem stepOn_start {T : Tables} {s : State} {w : CmdWord} {d : Block} {ms : List HostMove} (hp : s.eng.phase = .idle)
    (hn : s.rsp = none) (hm : s.moves = .start w d :: ms) : stepOn T s = beginWord T w d { s with moves := ms } := by
  simp [stepOn, idleMove, hp, hn, hm]

/-- A busy engine left alone makes one micro-step. -/
theorem stepOn_busy {T : Tables} {s : State} (hp : s.eng.phase ≠ .idle) (hm : s.moves = []) :
    stepOn T s = microStep T s := by
  cases h : s.eng.phase with
  | idle => contradiction
  | ks => simp [stepOn, busyMove, h, hm]
  | bc => simp [stepOn, busyMove, h, hm]

/-- A KS_ROUND as a step: the response comes with the round after which PHASE is IDLE (R134). -/
theorem stepOn_ksProgress {T : Tables} {s : State} {e : Engine} {n : Nat} (hn : n < 16) (hm : s.moves = []) :
    stepOn T { s with eng := ksProgress T e n } =
      if n + 1 = 16 then .next (respond .ok 0#64 { s with eng := ksProgress T e 16 })
      else .next { s with eng := ksProgress T e (n + 1) } := by
  have hphase : (ksProgress T e n).phase = .ks := if_neg (by omega)
  have hrnd : (ksProgress T e n).rnd.toNat < 16 := (ofNat5_toNat (by omega)).trans_lt hn
  rw [stepOn_busy (s := { s with eng := ksProgress T e n }) (by simp [hphase]) hm]
  simp only [microStep, hphase, hrnd, if_true, ksRound_progress T e hn]
  by_cases hlast : n + 1 = 16 <;> simp [hlast, ksProgress]

/-- After KS_INIT, sixteen steps complete KEXP (R132). -/
theorem runSteps_ksInit {T : Tables} {s : State} {e : Engine} (hm : s.moves = []) :
    runSteps T 16 { s with eng := ksInit T e } = .next (respond .ok 0#64 { s with eng := runKexp T e }) := by
  have hrounds := runSteps_along (T := T) (fun n => { s with eng := ksProgress T e n }) 15 1 fun n hn => by
    rw [stepOn_ksProgress (by omega) hm, if_neg (by omega)]
  rw [show ksInit T e = ksProgress T e 0 from ksRounds T e (Nat.zero_le _), hrounds, runSteps_one,
    stepOn_ksProgress (by omega) hm, if_pos rfl, runKexp, ksRounds T e (le_refl _)]

/-- A BC_ROUND as a step (R173). -/
theorem stepOn_bcProgress {T : Tables} {s : State} {B : Block} {dir : Direction} {e : Engine} {n : Nat} (hn : n < 16)
    (hm : s.moves = []) :
    stepOn T { s with eng := bcProgress T B dir e n } = .next { s with eng := bcProgress T B dir e (n + 1) } := by
  have hphase : (bcProgress T B dir e n).phase = .bc := rfl
  have hrnd : (bcProgress T B dir e n).rnd.toNat < 16 := (ofNat5_toNat (by omega)).trans_lt hn
  rw [stepOn_busy (s := { s with eng := bcProgress T B dir e n }) (by simp [hphase]) hm]
  simp only [microStep, hphase, hrnd, if_true, bcRound_progress T B dir e hn]

/-- BC_FINAL as a step (R174). -/
theorem stepOn_bcFinal {T : Tables} {s : State} {B : Block} {dir : Direction} {e : Engine} (hm : s.moves = []) :
    stepOn T { s with eng := bcProgress T B dir e 16 } =
      .next (respond .ok (bcFinal T (bcProgress T B dir e 16)).dout
        { s with eng := bcFinal T (bcProgress T B dir e 16) }) := by
  exact stepOn_busy (s := { s with eng := bcProgress T B dir e 16 }) (by simp [bcProgress]) hm

/-- After BC_INIT, seventeen steps complete ENC or DEC (R175, R176). -/
theorem runSteps_bcInit {T : Tables} {s : State} {B : Block} {dir : Direction} {e : Engine} (hm : s.moves = []) :
    runSteps T 17 { s with eng := bcInit T B dir e } =
      .next (respond .ok (runBlock T B dir e).dout { s with eng := runBlock T B dir e }) := by
  have hrounds := runSteps_along (T := T) (fun n => { s with eng := bcProgress T B dir e n }) 16 1 fun n hn =>
    stepOn_bcProgress hn hm
  rw [show bcInit T B dir e = bcProgress T B dir e 0 from bcRounds T B dir e (Nat.zero_le _), hrounds,
    runSteps_one, stepOn_bcFinal hm, runBlock, bcRounds T B dir e (le_refl _)]

/-! ### Both grains agree -/

/-- ENC and DEC with valid round keys, as the whole sequence (R175, R176; `execOn_block` gives the block in
closed form). -/
theorem execOn_blockInstr {T : Tables} {s : State} {dir : Direction} (h : s.eng.kv = true) :
    execOn T (blockInstr dir) s = .next (respond .ok (runBlock T s.wdata dir s.eng).dout
      { s with eng := runBlock T s.wdata dir s.eng }) := by
  cases dir with
  | enc => exact execOn_enc_ok h
  | dec => exact execOn_dec_ok h

/-- A word begun at micro-step grain makes the first micro-step of the sequence it selects, if its check passes; every
other word does what it does as one transaction (`beginInstr_cases` for words). -/
theorem beginWord_cases (T : Tables) (w : CmdWord) (d : Block) (s : State) :
    (decode w = .ok .kexp ∧ s.eng.kl = true ∧
      beginWord T w d s = .next { s with eng := ksInit T s.eng, wdata := d }) ∨
    (∃ dir, decode w = .ok (blockInstr dir) ∧ s.eng.kv = true ∧
      beginWord T w d s = .next { s with eng := bcInit T d dir s.eng, wdata := d }) ∨
    ((decode w = .ok .kexp → s.eng.kl = false) ∧ (decode w = .ok .enc ∨ decode w = .ok .dec → s.eng.kv = false) ∧
      beginWord T w d s = issueOn T w d s) := by
  cases hd : decode w with
  | error why => exact .inr (.inr ⟨by simp, by simp, by simp [beginWord, issueOn, hd]⟩)
  | ok i =>
    have hbegin : beginWord T w d s = beginInstr T i (sample d s) := by simp [beginWord, hd]
    rw [hbegin, issueOn_of_decode hd]
    obtain ⟨rfl, hkl, h⟩ | ⟨dir, rfl, hkv, h⟩ | ⟨hkl, hkv, h⟩ := beginInstr_cases T i (sample d s)
    · exact .inl ⟨rfl, hkl, h⟩
    · exact .inr (.inl ⟨dir, by cases dir <;> rfl, hkv, h⟩)
    · exact .inr (.inr ⟨by simpa using hkl, by simpa using hkv, h⟩)

/-- Settles O49: the sequence of a word's micro-steps, by the three ways a word can begin. -/
theorem commandIsItsMicroSteps : Obligations.CommandIsItsMicroSteps := by
  intro s w d hp hn hm
  have hstart : stepOn tables { s with moves := [.start w d] } = beginWord tables w d s := by
    have hs : { s with moves := [] } = s := by rw [← hm]
    rw [stepOn_start (s := { s with moves := [.start w d] }) hp hn rfl, hs]
  refine (core_run _ _).trans ?_
  rw [← issueOn_tables]
  obtain ⟨hd, hkl, hbegin⟩ | ⟨dir, hd, hkv, hbegin⟩ | ⟨hkl, hkv, hbegin⟩ := beginWord_cases tables w d s
  · rw [if_pos ⟨decode_eq_kexp.mp hd, hkl⟩, runSteps_succ (hstart.trans hbegin), issueOn_of_decode hd,
      execOn_kexp_ok (s := sample d s) hkl]
    exact runSteps_ksInit (s := sample d s) hm
  · have hw : w = 0x0003#16 ∨ w = 0x0004#16 := by
      cases dir with
      | enc => exact .inl (decode_eq_enc.mp hd)
      | dec => exact .inr (decode_eq_dec.mp hd)
    rw [if_neg (by rcases hw with rfl | rfl <;> simp), if_pos ⟨hw, hkv⟩, runSteps_succ (hstart.trans hbegin),
      issueOn_of_decode hd, execOn_blockInstr (s := sample d s) hkv]
    exact runSteps_bcInit (s := sample d s) hm
  · rw [decode_eq_kexp] at hkl
    rw [decode_eq_enc, decode_eq_dec] at hkv
    rw [if_neg fun ⟨hw, h⟩ => by simp [hkl hw] at h, if_neg fun ⟨hw, h⟩ => by simp [hkv hw] at h, runSteps_one, hstart,
      hbegin]

end Sys2Proof.Machine
end

section
/-! SUPPORT. The engine's state (10_state.md): what a command, a micro-step and a step do to the engine, what a command
responds, and the invariant of R29, R32 and R35, kept by every micro-step and so by every command and every step. -/

namespace Sys2Proof.Machine

/-! ### What a step does to the engine -/

/-- A successful command is LDKEY, KEXP, a block command or CLR, or it leaves the engine as it was. -/
theorem okEngine_cases (T : Tables) (i : Instr) (s : State) :
    (i = .ldkey ∧ okEngine T i s = { s.eng with key := s.wdata, kl := true, kv := false }) ∨
    (i = .kexp ∧ okEngine T i s = runKexp T s.eng) ∨
    (∃ dir, i = blockInstr dir ∧ okEngine T i s = runBlock T s.wdata dir s.eng) ∨
    (i = .clr ∧ okEngine T i s = Engine.reset) ∨
    okEngine T i s = s.eng := by
  cases i with
  | ldkey => exact .inl ⟨rfl, rfl⟩
  | kexp => exact .inr (.inl ⟨rfl, rfl⟩)
  | enc => exact .inr (.inr (.inl ⟨.enc, rfl, rfl⟩))
  | dec => exact .inr (.inr (.inl ⟨.dec, rfl, rfl⟩))
  | clr => exact .inr (.inr (.inr (.inl ⟨rfl, rfl⟩)))
  | nop | rdrk _ | rdtl _ | rdtr _ | rdtf _ | rdst => exact .inr (.inr (.inr (.inr rfl)))

/-- Settles O21: a failing command writes ERR alone, and a succeeding one what `okEngine_cases` lists. -/
theorem accessMatrix : Obligations.AccessMatrix := by
  intro i s t ht
  obtain ⟨e, he⟩ | ⟨d, hd⟩ := exec_cases i s
  · obtain rfl := Host.Outcome.next.inj (he.symm.trans ht)
    simp
  · obtain rfl := Host.Outcome.next.inj (hd.symm.trans ht)
    obtain ⟨rfl, h⟩ | ⟨rfl, h⟩ | ⟨dir, rfl, h⟩ | ⟨rfl, h⟩ | h := okEngine_cases tables i s
    · simp [h]
    · simp [h, runKexp_eq]
    · rw [h, runBlock_eq]
      cases dir <;> simp [blockInstr]
    · simp
    · simp [h]

/-- What one step does to the engine: a reset, nothing, the error bit of a failure, a successful command or the first
micro-step of one, or a micro-step of the sequence that runs. -/
inductive EngineStep (T : Tables) (s : State) : Engine → Prop
  | reset {ms} (moves : s.moves = .reset :: ms) : EngineStep T s Engine.reset
  | keep (idle : s.eng.phase = .idle) : EngineStep T s s.eng
  | fail (idle : s.eng.phase = .idle) (e : Error) : EngineStep T s { s.eng with err := rememberError s.eng.err e }
  | command {w d ms i} (idle : s.eng.phase = .idle) (ready : s.rsp = none)
      (moves : s.moves = .command w d :: ms ∨ s.moves = .start w d :: ms) (decoded : decode w = .ok i)
      (loaded : i = .kexp → s.eng.kl = true) (valid : i = .enc ∨ i = .dec → s.eng.kv = true) :
      EngineStep T s (okEngine T i (sample d s))
  | ksInit (idle : s.eng.phase = .idle) (loaded : s.eng.kl = true) : EngineStep T s (ksInit T s.eng)
  | bcInit (idle : s.eng.phase = .idle) (valid : s.eng.kv = true) (B : Block) (dir : Direction) :
      EngineStep T s (bcInit T B dir s.eng)
  | ksRound (running : s.eng.phase = .ks) (h : s.eng.rnd.toNat < 16) :
      EngineStep T s (ksRoundAt T ⟨s.eng.rnd.toNat, h⟩ s.eng)
  | bcRound (running : s.eng.phase = .bc) (h : s.eng.rnd.toNat < 16) :
      EngineStep T s (bcRoundAt T ⟨s.eng.rnd.toNat, h⟩ s.eng)
  | bcFinal (running : s.eng.phase = .bc) (h : s.eng.rnd.toNat = 16) : EngineStep T s (bcFinal T s.eng)

/-- KS_ROUND at RND < 16. -/
theorem ksRound_of_lt (T : Tables) {e : Engine} (h : e.rnd.toNat < 16) :
    ksRound T e = ksRoundAt T ⟨e.rnd.toNat, h⟩ e := dif_pos h

/-- BC_ROUND at RND < 16. -/
theorem bcRound_of_lt (T : Tables) {e : Engine} (h : e.rnd.toNat < 16) :
    bcRound T e = bcRoundAt T ⟨e.rnd.toNat, h⟩ e := dif_pos h

/-- A word that is accepted, with either kind of move, and runs as a whole. -/
theorem issueOn_engineStep {T : Tables} {s t : State} {w : CmdWord} {d : Block} {ms : List HostMove}
    (hp : s.eng.phase = .idle) (hn : s.rsp = none) (hm : s.moves = .command w d :: ms ∨ s.moves = .start w d :: ms)
    (h : issueOn T w d { s with moves := ms } = .next t) : EngineStep T s t.eng := by
  obtain ⟨i, hd, hi⟩ | ⟨why, -, hi⟩ := issueOn_cases T w d { s with moves := ms }
  · rw [hi] at h
    obtain ⟨e, he⟩ | ⟨r, hr⟩ := execOn_cases T i (sample d { s with moves := ms })
    · obtain rfl := Host.Outcome.next.inj (he.symm.trans h)
      exact .fail hp e
    · obtain rfl := Host.Outcome.next.inj (hr.symm.trans h)
      obtain ⟨hkl, hkv⟩ := execOn_ok_precondition hr
      exact .command hp hn hm hd hkl hkv
  · obtain rfl := Host.Outcome.next.inj (hi.symm.trans h)
    exact .fail hp .illcmd

/-- Every step that goes on does one of the things of `EngineStep` to the engine. -/
theorem stepOn_engineStep {T : Tables} {s t : State} (h : stepOn T s = .next t) : EngineStep T s t.eng := by
  obtain ⟨ms, hm, rfl⟩ | ⟨hp, ms, rfl | rfl⟩ | ⟨hp, hn, w, d, ms, u, hm, hu, rfl⟩ | ⟨hp, hn, w, d, ms, hm, hb⟩ |
    ⟨hp, ms, hmicro⟩ := stepOn_cases h
  · exact .reset hm
  · exact .keep hp
  · rw [takeResponse_eng]
    exact .keep hp
  · rw [takeResponse_eng]
    exact issueOn_engineStep hp hn (.inl hm) hu
  · obtain ⟨-, hkl, hi⟩ | ⟨dir, -, hkv, hi⟩ | ⟨-, -, hi⟩ := beginWord_cases T w d { s with moves := ms }
    · obtain rfl := Host.Outcome.next.inj (hi.symm.trans hb)
      exact .ksInit hp hkl
    · obtain rfl := Host.Outcome.next.inj (hi.symm.trans hb)
      exact .bcInit hp hkv d dir
    · exact issueOn_engineStep hp hn (.inr hm) (hi.symm.trans hb)
  · obtain ⟨hks, hr, ⟨-, rfl⟩ | ⟨-, rfl⟩⟩ | ⟨hbc, hr, rfl⟩ | ⟨hbc, hr, rfl⟩ :=
      microStep_cases (s := { s with moves := ms }) hp hmicro
    · rw [respond_eng, ksRound_of_lt T hr]
      exact .ksRound (s := s) hks hr
    · rw [ksRound_of_lt T hr]
      exact .ksRound (s := s) hks hr
    · rw [bcRound_of_lt T hr]
      exact .bcRound (s := s) hbc hr
    · exact .bcFinal hbc hr

/-! ### What is forgotten, and when KEY changes -/

/-- The engine `e'` remembers what `e` does: no bit of ERR is lost and neither KL nor TV is cleared (R28, R248). -/
structure Remembers (e e' : Engine) : Prop where
  err : e.err &&& e'.err = e.err
  kl : e.kl = true → e'.kl = true
  tv : e.tv = true → e'.tv = true

/-- An engine with the same ERR, KL and TV. -/
theorem Remembers.of_eq {e e' : Engine} (herr : e'.err = e.err) (hkl : e'.kl = e.kl) (htv : e'.tv = e.tv) :
    Remembers e e' :=
  ⟨by rw [herr, BitVec.and_self], hkl ▸ id, htv ▸ id⟩

/-- A successful command other than CLR forgets nothing. -/
theorem remembers_okEngine {T : Tables} {i : Instr} {s : State} (hi : i ≠ .clr) :
    Remembers s.eng (okEngine T i s) := by
  obtain ⟨-, h⟩ | ⟨-, h⟩ | ⟨dir, -, h⟩ | ⟨rfl, -⟩ | h := okEngine_cases T i s
  · rw [h]
    exact ⟨BitVec.and_self, fun _ => rfl, id⟩
  · rw [h, runKexp_eq]
    exact .of_eq rfl rfl rfl
  · rw [h, runBlock_eq]
    exact ⟨BitVec.and_self, id, fun _ => rfl⟩
  · contradiction
  · rw [h]
    exact .of_eq rfl rfl rfl

/-- Settles O23: of the things a step does to the engine only a reset and an accepted CLR forget. -/
theorem onlyClrAndResetForget : Obligations.OnlyClrAndResetForget := by
  intro s t hstep hreset hclr
  have heng : EngineStep tables s t.eng := stepOn_engineStep hstep
  suffices Remembers s.eng t.eng from ⟨this.err, this.kl, this.tv⟩
  generalize t.eng = e at heng
  cases heng with
  | reset hm => exact absurd hm (hreset _)
  | keep => exact .of_eq rfl rfl rfl
  | fail _ e => exact ⟨rememberError_keeps _ e, id, id⟩
  | @command w d ms i hp hn hm hd =>
    exact remembers_okEngine (s := sample d s) fun hi => hclr hp hn _ _ _ hm (hi ▸ hd)
  | ksInit | bcInit | ksRound | bcRound => exact .of_eq rfl rfl rfl
  | bcFinal => exact ⟨BitVec.and_self, id, fun _ => rfl⟩

/-- Settles O24: of the things a step does to the engine only a reset, LDKEY and CLR write KEY. -/
theorem keyChangesOnlyByLdkeyClrReset : Obligations.KeyChangesOnlyByLdkeyClrReset := by
  intro s t hstep hkey
  have heng : EngineStep tables s t.eng := stepOn_engineStep hstep
  generalize t.eng = e at heng hkey ⊢
  cases heng with
  | reset hm => exact .inl ⟨_, hm⟩
  | keep | fail | ksInit | bcInit | ksRound | bcRound | bcFinal => exact absurd rfl hkey
  | @command w d ms i hp hn hm hd =>
    refine .inr ⟨hp, hn, w, d, ms, hm, ?_⟩
    obtain ⟨rfl, h⟩ | ⟨-, h⟩ | ⟨dir, -, h⟩ | ⟨rfl, -⟩ | h := okEngine_cases tables i (sample d s)
    · rw [h]
      exact .inr ⟨hd, rfl, rfl⟩
    · rw [h, runKexp_eq] at hkey
      exact absurd rfl hkey
    · rw [h, runBlock_eq] at hkey
      exact absurd rfl hkey
    · exact .inl hd
    · rw [h] at hkey
      exact absurd rfl hkey

/-! ### What a command responds -/

/-- The response of a command (R77), by the elements that it may read (R34). -/
def responseOn (T : Tables) (i : Instr) (s : State) : Response :=
  match i with
  | .nop | .ldkey | .clr => ⟨.ok, 0#64⟩
  | .kexp => if s.eng.kl then ⟨.ok, 0#64⟩ else ⟨.fail .nokey, 0#64⟩
  | .enc => if s.eng.kv then ⟨.ok, blockFn T s.wdata s.eng.rk .enc⟩ else ⟨.fail .nosched, 0#64⟩
  | .dec => if s.eng.kv then ⟨.ok, blockFn T s.wdata s.eng.rk .dec⟩ else ⟨.fail .nosched, 0#64⟩
  | .rdrk idx =>
    if h : RoundIndex idx then
      if s.eng.kv then ⟨.ok, zext64 (s.eng.RK idx h)⟩ else ⟨.fail .nosched, 0#64⟩
    else ⟨.fail .badidx, 0#64⟩
  | .rdtl idx =>
    if h : HalfIndex idx then
      if s.eng.tv then ⟨.ok, zext64 (s.eng.TL idx h)⟩ else ⟨.fail .notrace, 0#64⟩
    else ⟨.fail .badidx, 0#64⟩
  | .rdtr idx =>
    if h : HalfIndex idx then
      if s.eng.tv then ⟨.ok, zext64 (s.eng.TR idx h)⟩ else ⟨.fail .notrace, 0#64⟩
    else ⟨.fail .badidx, 0#64⟩
  | .rdtf idx =>
    if h : RoundIndex idx then
      if s.eng.tv then ⟨.ok, zext64 (s.eng.TF idx h)⟩ else ⟨.fail .notrace, 0#64⟩
    else ⟨.fail .badidx, 0#64⟩
  | .rdst => ⟨.ok, statusWord s.eng⟩

/-- A trace read with a legal index responds with the value, or fails with NOTRACE. -/
theorem traceRead_rsp {v : Half} {s t : State} (h : traceRead v s = .next t) :
    t.rsp = some (if s.eng.tv then ⟨.ok, zext64 v⟩ else ⟨.fail .notrace, 0#64⟩) := by
  unfold traceRead at h
  split at h <;> obtain rfl := Host.Outcome.next.inj h <;> simp [*]

/-- A trace read checks its index first (R243). -/
theorem indexedTraceRead_rsp {P : Prop} [Decidable P] {entry : P → Half} {s t : State}
    (h : (if hi : P then traceRead (entry hi) s else .next (raise .badidx s)) = .next t) :
    t.rsp = some (if hi : P then if s.eng.tv then ⟨.ok, zext64 (entry hi)⟩ else ⟨.fail .notrace, 0#64⟩
      else ⟨.fail .badidx, 0#64⟩) := by
  by_cases hi : P
  · rw [dif_pos hi] at h ⊢
    exact traceRead_rsp h
  · rw [dif_neg hi] at h ⊢
    obtain rfl := Host.Outcome.next.inj h
    rfl

/-- ENC and DEC respond with the block, or fail with NOSCHED. -/
theorem blockInstr_rsp {T : Tables} {dir : Direction} {s t : State} (h : execOn T (blockInstr dir) s = .next t) :
    t.rsp = some (if s.eng.kv then ⟨.ok, blockFn T s.wdata s.eng.rk dir⟩ else ⟨.fail .nosched, 0#64⟩) := by
  cases hkv : s.eng.kv with
  | false =>
    have hfail : execOn T (blockInstr dir) s = .next (raise .nosched s) := by
      cases dir with
      | enc => exact (execOn_block_nosched hkv).1
      | dec => exact (execOn_block_nosched hkv).2
    obtain rfl := Host.Outcome.next.inj (hfail.symm.trans h)
    simp
  | true =>
    obtain rfl := Host.Outcome.next.inj ((execOn_block dir hkv).symm.trans h)
    simp

/-- Every command responds as `responseOn` says. -/
theorem execOn_rsp {T : Tables} {i : Instr} {s t : State} (h : execOn T i s = .next t) :
    t.rsp = some (responseOn T i s) := by
  cases i with
  | nop | ldkey | rdst | clr => obtain rfl := Host.Outcome.next.inj h; rfl
  | kexp =>
    cases hkl : s.eng.kl with
    | false =>
      obtain rfl := Host.Outcome.next.inj ((execOn_kexp_nokey hkl).symm.trans h)
      simp [responseOn, hkl]
    | true =>
      obtain rfl := Host.Outcome.next.inj ((execOn_kexp_ok hkl).symm.trans h)
      simp [responseOn, hkl]
  | enc => exact blockInstr_rsp (dir := .enc) h
  | dec => exact blockInstr_rsp (dir := .dec) h
  | rdrk idx =>
    simp only [execOn, execRdrk] at h
    repeat' split at h
    all_goals obtain rfl := Host.Outcome.next.inj h; simp [responseOn, *]
  | rdtl idx | rdtr idx | rdtf idx => exact indexedTraceRead_rsp h

/-- Settles O25: `responseOn` reads none of the hidden elements. -/
theorem hiddenElementsReachNoResponse : Obligations.HiddenElementsReachNoResponse := by
  intro i s s' t t' hwdata hrk htl htr htf hkl hkv htv hdir herr ht ht'
  have hstatus : statusWord s.eng = statusWord s'.eng := by
    simp only [statusWord, hkl, hkv, htv, hdir, herr]
  have hresponse : responseOn tables i s = responseOn tables i s' := by
    cases i with
    | nop | ldkey | clr => rfl
    | kexp => simp only [responseOn, hkl]
    | enc | dec => simp only [responseOn, hkv, hwdata, hrk]
    | rdrk idx => simp only [responseOn, Engine.RK, hkv, hrk]
    | rdtl idx => simp only [responseOn, Engine.TL, htv, htl]
    | rdtr idx => simp only [responseOn, Engine.TR, htv, htr]
    | rdtf idx => simp only [responseOn, Engine.TF, htv, htf]
    | rdst => simp only [responseOn, hstatus]
  rw [← execOn_tables] at ht ht'
  rw [execOn_rsp ht, execOn_rsp ht', hresponse]

end Sys2Proof.Machine
end

section
/-! SUPPORT. The invariant of R29, R32, R35 and R201 (Safety.lean): it holds of the reset engine, each micro-step keeps the
engine's part, so a whole command does, and so every step does; the port's part by what an accepted word answers. -/

namespace Sys2Proof.Machine

/-! ### The reset state -/

/-- Settles O18: the reset state holds zeros. -/
theorem resetValues : Obligations.ResetValues := by
  refine ⟨rfl, ?_, rfl, rfl, rfl, rfl, rfl, ?_, ?_, ?_, rfl, rfl, rfl, rfl, rfl, rfl, rfl⟩ <;>
    intro i <;> exact Vector.getElem_replicate ..

/-- The reset engine: no flag is set, no sequence runs and RND is 0. -/
theorem engineInv_reset (T : Tables) : EngineInv T Engine.reset where
  valid_loaded := nofun
  trace_loaded := nofun
  dec_traced := nofun
  keys := nofun
  idle_round _ := .inl rfl
  ks_running := nofun
  bc_running := nofun
  trace := nofun

/-! ### The trace of a block -/

/-- The trace of a block depends on the trace file, DIR, DOUT, L and R alone (R35). -/
theorem TraceOf.congr {T : Tables} {e e' : Engine} {B : Block} {rks : RoundKeySet} (h : TraceOf T e B rks)
    (he : e' = { e' with tl := e.tl, tr := e.tr, tf := e.tf, dir := e.dir, dout := e.dout, l := e.l, r := e.r }) :
    TraceOf T e' B rks := by
  obtain ⟨⟨hstart, hleft, hf, hright⟩, hout, hl, hr⟩ := h
  rw [he]
  exact ⟨⟨hstart, hleft, hf, hright⟩, hout, hl, hr⟩

/-- So the trace part of the invariant is kept by whatever leaves these and TV as they are. -/
theorem EngineInv.trace_congr {T : Tables} {e e' : Engine} (h : EngineInv T e) (hp : e.phase ≠ .bc)
    (he : e' = { e' with
      tl := e.tl, tr := e.tr, tf := e.tf, dir := e.dir, dout := e.dout, l := e.l, r := e.r, tv := e.tv })
    (htv : e'.tv = true) : ∃ B k, TraceOf T e' B (ks T k) := by
  rw [he] at htv
  obtain ⟨B, k, htrace⟩ := h.trace hp htv
  exact ⟨B, k, htrace.congr (by rw [he])⟩

/-- BC_INIT writes the first entries of a trace (R172). -/
theorem traceUpTo_bcInit (T : Tables) (B : Block) (dir : Direction) (e : Engine) (rks : RoundKeySet) :
    TraceUpTo T (bcInit T B dir e) B rks 0 where
  start := by simpa [bcInit, blockStart] using srcSlice_append (p := 32) (q := 32) rfl (permute B T.ip)
  left := nofun
  fOutput := nofun
  right := nofun

/-- BC_ROUND writes the next entries of the trace (R173). -/
theorem TraceUpTo.bcRound {T : Tables} {e : Engine} {B : Block} {n : Fin 16} (h : TraceUpTo T e B e.rk n.val)
    (hl : e.tl[n.val] = e.l) (hr : e.tr[n.val] = e.r) : TraceUpTo T (bcRoundAt T n e) B e.rk (n.val + 1) where
  start := by simpa [bcRoundAt] using h.start
  left i hi := by
    obtain hlt | heq := Nat.lt_succ_iff_lt_or_eq.mp hi
    · simpa [bcRoundAt, Nat.ne_of_gt hlt, Nat.ne_of_gt hi] using h.left i hlt
    · obtain rfl := Fin.ext heq
      simp [bcRoundAt, hr]
  fOutput i hi := by
    obtain hlt | heq := Nat.lt_succ_iff_lt_or_eq.mp hi
    · simpa [bcRoundAt, Nat.ne_of_gt hlt, Nat.ne_of_gt hi] using h.fOutput i hlt
    · obtain rfl := Fin.ext heq
      simp [bcRoundAt, hr]
  right i hi := by
    obtain hlt | heq := Nat.lt_succ_iff_lt_or_eq.mp hi
    · simpa [bcRoundAt, Nat.ne_of_gt hlt, Nat.ne_of_gt hi] using h.right i hlt
    · obtain rfl := Fin.ext heq
      simp [bcRoundAt, hl]

/-- BC_FINAL completes the trace of a block (R174). -/
theorem TraceUpTo.bcFinal {T : Tables} {e : Engine} {B : Block} {rks : RoundKeySet} (h : TraceUpTo T e B rks 16)
    (hl : e.tl[16] = e.l) (hr : e.tr[16] = e.r) : TraceOf T (bcFinal T e) B rks where
  rounds := ⟨h.start, h.left, h.fOutput, h.right⟩
  output := by simp [Machine.bcFinal, blockFinish, hl, hr]
  leftHalf := hl.symm
  rightHalf := hr.symm

/-! ### The micro-steps keep the engine's invariant -/

/-- KS_INIT (R133). -/
theorem EngineInv.ksInit {T : Tables} {e : Engine} (h : EngineInv T e) (hp : e.phase ≠ .bc) (hkl : e.kl = true) :
    EngineInv T (ksInit T e) where
  valid_loaded := h.valid_loaded
  trace_loaded := h.trace_loaded
  dec_traced _ := h.dec_traced hp
  keys := h.keys
  idle_round := nofun
  ks_running _ := ⟨Nat.zero_lt_succ 15, hkl, rfl, nofun⟩
  bc_running := nofun
  trace _ := h.trace_congr hp rfl

/-- KS_ROUND makes the halves of the next round (R130, R134). -/
theorem ksRoundAt_halves {T : Tables} {e : Engine} {n : Fin 16} (h : (e.c, e.d) = ksHalves T e.key n.val) :
    ((ksRoundAt T n e).c, (ksRoundAt T n e).d) = ksHalves T e.key (n.val + 1) := by
  rw [ksHalves_succ T e.key n.isLt, ← h]
  rfl

/-- KS_ROUND writes the round key of its round and keeps the other fifteen (R130, R134). -/
theorem ksRoundAt_rk {T : Tables} {e : Engine} {n : Fin 16} (h : (e.c, e.d) = ksHalves T e.key n.val) (i : Fin 16) :
    (ksRoundAt T n e).rk[i] = if i.val = n.val then (ks T e.key)[i] else e.rk[i] := by
  have hnew : ksSelect T (ksRotate n (e.c, e.d)) = (ks T e.key)[n] := by
    simp [ks, ksHalves_succ T e.key n.isLt, h]
  simp only [ksRoundAt, hnew, Fin.getElem_fin, Vector.getElem_set, eq_comm (a := n.val)]
  split
  · obtain rfl := Fin.ext ‹i.val = n.val›
    rfl
  · rfl

/-- KS_ROUND (R134). -/
theorem EngineInv.ksRound {T : Tables} {e : Engine} (h : EngineInv T e) (hp : e.phase = .ks) (hn : e.rnd.toNat < 16) :
    EngineInv T (ksRoundAt T ⟨e.rnd.toNat, hn⟩ e) := by
  obtain ⟨-, hkl, hcd, hrk⟩ := h.ks_running hp
  have hbc : e.phase ≠ .bc := by simp [hp]
  have hentry : ∀ i : Fin 16, (ksRoundAt T ⟨e.rnd.toNat, hn⟩ e).rk[i] =
      if i.val = e.rnd.toNat then (ks T e.key)[i] else e.rk[i] := ksRoundAt_rk hcd
  have hdone : ∀ i : Fin 16, i.val < e.rnd.toNat + 1 →
      (ksRoundAt T ⟨e.rnd.toNat, hn⟩ e).rk[i] = (ks T e.key)[i] := by
    intro i hi
    rw [hentry]
    split
    · rfl
    · exact hrk i (by omega)
  have hrnd : (ksRoundAt T ⟨e.rnd.toNat, hn⟩ e).rnd.toNat = e.rnd.toNat + 1 := ofNat5_toNat (by omega)
  refine
    { valid_loaded := fun _ => hkl
      trace_loaded := h.trace_loaded
      dec_traced := fun _ => h.dec_traced hbc
      keys := fun hkv => ?_
      idle_round := fun hidle => ?_
      ks_running := fun hks => ?_
      bc_running := fun hphase => ?_
      trace := fun _ => h.trace_congr hbc rfl }
  · ext i hi : 1
    by_cases hlt : i < e.rnd.toNat + 1
    · exact hdone ⟨i, hi⟩ hlt
    · have hkv' : e.kv = true := by simpa [ksRoundAt, show e.rnd.toNat + 1 ≠ 16 by omega] using hkv
      refine (hentry ⟨i, hi⟩).trans ?_
      rw [h.keys hkv', ite_self]
      rfl
  · by_cases hlast : e.rnd.toNat + 1 = 16
    · simp [ksRoundAt, hlast]
    · simp [ksRoundAt, hlast, hp] at hidle
  · have hlast : e.rnd.toNat + 1 ≠ 16 := fun hlast => by simp [ksRoundAt, hlast] at hks
    rw [hrnd]
    exact ⟨by omega, hkl, ksRoundAt_halves (n := ⟨e.rnd.toNat, hn⟩) hcd, hdone⟩
  · by_cases hlast : e.rnd.toNat + 1 = 16 <;> simp [ksRoundAt, hlast, hp] at hphase

/-- BC_INIT (R172). -/
theorem EngineInv.bcInit {T : Tables} {e : Engine} (h : EngineInv T e) (hkv : e.kv = true) (B : Block)
    (dir : Direction) : EngineInv T (bcInit T B dir e) where
  valid_loaded := h.valid_loaded
  trace_loaded := h.trace_loaded
  dec_traced hp := absurd rfl hp
  keys := h.keys
  idle_round := nofun
  ks_running := nofun
  bc_running _ :=
    ⟨Nat.zero_le 16, hkv, ⟨B, traceUpTo_bcInit T B dir e _⟩, by simp [Machine.bcInit], by simp [Machine.bcInit]⟩
  trace hp := absurd rfl hp

/-- BC_ROUND (R173). -/
theorem EngineInv.bcRound {T : Tables} {e : Engine} (h : EngineInv T e) (hp : e.phase = .bc) (hn : e.rnd.toNat < 16) :
    EngineInv T (bcRoundAt T ⟨e.rnd.toNat, hn⟩ e) := by
  obtain ⟨-, hkv, ⟨B, hB⟩, hl, hr⟩ := h.bc_running hp
  obtain ⟨_, hl⟩ := Vector.getElem?_eq_some_iff.mp hl
  obtain ⟨_, hr⟩ := Vector.getElem?_eq_some_iff.mp hr
  have hrnd : (bcRoundAt T ⟨e.rnd.toNat, hn⟩ e).rnd.toNat = e.rnd.toNat + 1 := ofNat5_toNat (by omega)
  refine
    { valid_loaded := h.valid_loaded
      trace_loaded := h.trace_loaded
      dec_traced := fun hbc => absurd hp hbc
      keys := h.keys
      idle_round := fun hidle => ?_
      ks_running := fun hks => ?_
      bc_running := fun _ => ?_
      trace := fun hbc => absurd hp hbc }
  · simp [bcRoundAt, hp] at hidle
  · simp [bcRoundAt, hp] at hks
  · rw [hrnd]
    exact ⟨by omega, hkv, ⟨B, hB.bcRound (n := ⟨e.rnd.toNat, hn⟩) hl hr⟩, by simp [bcRoundAt], by simp [bcRoundAt]⟩

/-- BC_FINAL: the sequence's trace is now that of a whole block, under the schedule of KEY (R174, R32). -/
theorem EngineInv.bcFinal {T : Tables} {e : Engine} (h : EngineInv T e) (hp : e.phase = .bc) (hn : e.rnd.toNat = 16) :
    EngineInv T (bcFinal T e) := by
  obtain ⟨-, hkv, ⟨B, hB⟩, hl, hr⟩ := h.bc_running hp
  rw [hn, h.keys hkv] at hB
  rw [hn] at hl hr
  obtain ⟨_, hl⟩ := Vector.getElem?_eq_some_iff.mp hl
  obtain ⟨_, hr⟩ := Vector.getElem?_eq_some_iff.mp hr
  exact
    { valid_loaded := h.valid_loaded
      trace_loaded := fun _ => h.valid_loaded hkv
      dec_traced := fun _ _ => rfl
      keys := h.keys
      idle_round := fun _ => .inr (BitVec.eq_of_toNat_eq hn)
      ks_running := nofun
      bc_running := nofun
      trace := fun _ _ => ⟨B, e.key, hB.bcFinal hl hr⟩ }

/-! ### So does a whole command, and so does a step -/

/-- KEXP, by its seventeen micro-steps (R132). -/
theorem EngineInv.runKexp {T : Tables} {e : Engine} (h : EngineInv T e) (hp : e.phase = .idle) (hkl : e.kl = true) :
    EngineInv T (runKexp T e) := by
  have hprogress : ∀ n, n ≤ 16 → EngineInv T (ksProgress T e n) := by
    intro n
    induction n with
    | zero => exact fun _ => ksRounds T e (Nat.zero_le 16) ▸ h.ksInit (by simp [hp]) hkl
    | succ n ih =>
      intro hn
      have hlt : (ksProgress T e n).rnd.toNat < 16 := (ofNat5_toNat (by omega)).trans_lt hn
      rw [← ksRound_progress T e hn, ksRound_of_lt T hlt]
      exact (ih (by omega)).ksRound (if_neg (by omega)) hlt
  rw [Machine.runKexp, ksRounds T e (le_refl 16)]
  exact hprogress 16 (le_refl 16)

/-- ENC and DEC, by their eighteen micro-steps (R175, R176). -/
theorem EngineInv.runBlock {T : Tables} {e : Engine} (h : EngineInv T e) (hkv : e.kv = true) (B : Block)
    (dir : Direction) : EngineInv T (runBlock T B dir e) := by
  have hprogress : ∀ n, n ≤ 16 → EngineInv T (bcProgress T B dir e n) := by
    intro n
    induction n with
    | zero => exact fun _ => bcRounds T B dir e (Nat.zero_le 16) ▸ h.bcInit hkv B dir
    | succ n ih =>
      intro hn
      have hlt : (bcProgress T B dir e n).rnd.toNat < 16 := (ofNat5_toNat (by omega)).trans_lt hn
      rw [← bcRound_progress T B dir e hn, bcRound_of_lt T hlt]
      exact (ih (by omega)).bcRound rfl hlt
  rw [Machine.runBlock, bcRounds T B dir e (le_refl 16)]
  exact (hprogress 16 (le_refl 16)).bcFinal rfl rfl

/-- LDKEY: the round keys lose their validity, so nothing is said of them (R131). -/
theorem EngineInv.ldkey {T : Tables} {e : Engine} (h : EngineInv T e) (hp : e.phase = .idle) (k : Block) :
    EngineInv T { e with key := k, kl := true, kv := false } where
  valid_loaded := nofun
  trace_loaded _ := rfl
  dec_traced := h.dec_traced
  keys := nofun
  idle_round := h.idle_round
  ks_running hks := absurd (hks.symm.trans hp) nofun
  bc_running hbc := absurd (hbc.symm.trans hp) nofun
  trace hbc := h.trace_congr hbc rfl

/-- A failure's bit of ERR is nothing to the invariant (R245). -/
theorem EngineInv.withErr {T : Tables} {e : Engine} (h : EngineInv T e) (hp : e.phase = .idle) (err : BitVec 5) :
    EngineInv T { e with err := err } where
  valid_loaded := h.valid_loaded
  trace_loaded := h.trace_loaded
  dec_traced := h.dec_traced
  keys := h.keys
  idle_round := h.idle_round
  ks_running := h.ks_running
  bc_running hbc := absurd (hbc.symm.trans hp) nofun
  trace hbc := h.trace_congr hbc rfl

/-- Everything that a step can do to the engine keeps its invariant. -/
theorem EngineInv.step {T : Tables} {s : State} {e : Engine} (h : EngineInv T s.eng) (hstep : EngineStep T s e) :
    EngineInv T e := by
  cases hstep with
  | reset => exact engineInv_reset T
  | keep => exact h
  | fail hp => exact h.withErr hp _
  | @command w d ms i hp _ _ _ hkl hkv =>
    obtain ⟨-, hi⟩ | ⟨hexp, hi⟩ | ⟨dir, hblock, hi⟩ | ⟨-, hi⟩ | hi := okEngine_cases T i (sample d s) <;> rw [hi]
    · exact h.ldkey hp _
    · exact h.runKexp hp (hkl hexp)
    · exact h.runBlock (hkv (by cases dir <;> simp [hblock, blockInstr])) _ dir
    · exact engineInv_reset T
    · exact h
  | ksInit hp hkl => exact h.ksInit (by simp [hp]) hkl
  | bcInit _ hkv B dir => exact h.bcInit hkv B dir
  | ksRound hp hn => exact h.ksRound hp hn
  | bcRound hp hn => exact h.bcRound hp hn
  | bcFinal hp hn => exact h.bcFinal hp hn

/-! ### The port -/

/-- The part of the invariant that speaks of responses (R77, R83). -/
structure PortInv (s : State) : Prop where
  busy : s.eng.phase ≠ .idle → s.rsp = none
  pending : ∀ r, s.rsp = some r → ResponseInv r
  responses : ∀ r ∈ s.taken, ResponseInv r

/-- The invariant is the engine's and the port's. -/
theorem state_inv_iff {T : Tables} {s : State} : s.Inv T ↔ EngineInv T s.eng ∧ PortInv s :=
  ⟨fun ⟨h, hb, hp, hr⟩ => ⟨h, hb, hp, hr⟩, fun ⟨h, hb, hp, hr⟩ => ⟨h, hb, hp, hr⟩⟩

/-- A successful command that begins in an idle engine ends in one. -/
theorem okEngine_phase {T : Tables} {i : Instr} {s : State} (hp : s.eng.phase = .idle) :
    (okEngine T i s).phase = .idle := by
  obtain ⟨-, h⟩ | ⟨-, h⟩ | ⟨dir, -, h⟩ | ⟨-, h⟩ | h := okEngine_cases T i s <;> rw [h]
  · exact hp
  · rw [runKexp_eq]
  · rw [runBlock_eq]
  · rfl
  · exact hp

/-- An OK response may carry any data (R77). -/
theorem responseInv_ok (d : Block) : ResponseInv ⟨.ok, d⟩ := fun h => absurd rfl h

/-- The response of `raise` carries none (R77, R245). -/
theorem responseInv_fail (e : Error) : ResponseInv ⟨.fail e, 0#64⟩ := fun _ => rfl

/-- An idle engine runs a whole word to an idle engine with a well-formed response pending. -/
theorem issueOn_responds {T : Tables} {w : CmdWord} {d : Block} {s t : State} (hp : s.eng.phase = .idle)
    (h : issueOn T w d s = .next t) :
    t.eng.phase = .idle ∧ t.taken = s.taken ∧ ∃ r, t.rsp = some r ∧ ResponseInv r := by
  obtain ⟨i, -, hi⟩ | ⟨why, -, hi⟩ := issueOn_cases T w d s <;> rw [hi] at h
  · obtain ⟨e, he⟩ | ⟨r, hr⟩ := execOn_cases T i (sample d s)
    · obtain rfl := Host.Outcome.next.inj (he.symm.trans h)
      exact ⟨hp, rfl, _, rfl, responseInv_fail e⟩
    · obtain rfl := Host.Outcome.next.inj (hr.symm.trans h)
      exact ⟨okEngine_phase (s := sample d s) hp, rfl, _, rfl, responseInv_ok r⟩
  · obtain rfl := Host.Outcome.next.inj h
    exact ⟨hp, rfl, _, rfl, responseInv_fail .illcmd⟩

/-- A state with a well-formed response pending in an idle engine. -/
theorem PortInv.of_responds {s t : State} (h : PortInv s)
    (ht : t.eng.phase = .idle ∧ t.taken = s.taken ∧ ∃ r, t.rsp = some r ∧ ResponseInv r) : PortInv t := by
  obtain ⟨hp, htaken, r, hr, hinv⟩ := ht
  refine ⟨fun hbusy => absurd hp hbusy, fun r' hr' => ?_, htaken ▸ h.responses⟩
  obtain rfl := Option.some.inj (hr.symm.trans hr')
  exact hinv

/-- Taking the response. -/
theorem PortInv.takeResponse {s : State} (h : PortInv s) : PortInv (takeResponse s) where
  busy _ := takeResponse_rsp s
  pending r hr := by simp at hr
  responses r hr := by
    rw [takeResponse_taken, List.mem_append, Option.mem_toList] at hr
    exact hr.elim (h.responses r) (h.pending r)

/-- A step that neither responds nor takes a response. -/
theorem PortInv.of_rsp_none {s t : State} (h : PortInv s) (hrsp : t.rsp = none) (htaken : t.taken = s.taken) :
    PortInv t :=
  ⟨fun _ => hrsp, fun r hr => by simp [hrsp] at hr, htaken ▸ h.responses⟩

/-- Every step keeps the port's invariant. -/
theorem PortInv.step {T : Tables} {s t : State} (h : PortInv s) (hstep : stepOn T s = .next t) : PortInv t := by
  obtain ⟨ms, -, rfl⟩ | ⟨-, ms, rfl | rfl⟩ | ⟨hp, -, w, d, ms, u, -, hu, rfl⟩ | ⟨hp, hn, w, d, ms, -, hb⟩ |
    ⟨hp, ms, hmicro⟩ := stepOn_cases hstep
  · exact h.of_rsp_none rfl rfl
  · exact ⟨h.busy, h.pending, h.responses⟩
  · exact PortInv.takeResponse ⟨h.busy, h.pending, h.responses⟩
  · exact (h.of_responds (issueOn_responds (s := { s with moves := ms }) hp hu)).takeResponse
  · obtain ⟨-, -, hi⟩ | ⟨dir, -, -, hi⟩ | ⟨-, -, hi⟩ := beginWord_cases T w d { s with moves := ms }
    · obtain rfl := Host.Outcome.next.inj (hi.symm.trans hb)
      exact h.of_rsp_none hn rfl
    · obtain rfl := Host.Outcome.next.inj (hi.symm.trans hb)
      exact h.of_rsp_none hn rfl
    · exact h.of_responds (issueOn_responds (s := { s with moves := ms }) hp (hi.symm.trans hb))
  · have hn := h.busy hp
    obtain ⟨-, -, ⟨hidle, rfl⟩ | ⟨-, rfl⟩⟩ | ⟨-, -, rfl⟩ | ⟨-, -, rfl⟩ :=
      microStep_cases (s := { s with moves := ms }) hp hmicro
    · exact h.of_responds ⟨hidle, rfl, _, rfl, responseInv_ok _⟩
    · exact h.of_rsp_none hn rfl
    · exact h.of_rsp_none hn rfl
    · exact h.of_responds ⟨rfl, rfl, _, rfl, responseInv_ok _⟩

/-! ### The whole invariant -/

/-- Settles O50: the reset engine has the invariant, and no response has been given. -/
theorem resetKeepsInvariant : Obligations.ResetKeepsInvariant := fun T =>
  state_inv_iff.mpr ⟨engineInv_reset T, fun _ => rfl, nofun, nofun⟩

/-- A step over any tables keeps the invariant. -/
theorem stepOn_inv {T : Tables} {s t : State} (h : s.Inv T) (hstep : stepOn T s = .next t) : t.Inv T := by
  obtain ⟨heng, hport⟩ := state_inv_iff.mp h
  exact state_inv_iff.mpr ⟨heng.step (stepOn_engineStep hstep), hport.step hstep⟩

/-- Settles O51: the engine's part by `EngineStep`, the port's by `stepOn_cases`. -/
theorem stepKeepsInvariant : Obligations.StepKeepsInvariant :=
  ⟨fun _ _ _ => stepOn_inv, fun _ _ => stepOn_inv⟩

end Sys2Proof.Machine
end

section
/-! SUPPORT. Reads and byte order (20_memory.md): a successful read answers the state with its response and nothing else
changed; the values that stand in the bits of a block, byte by byte and hexadecimal digit by digit, are its slices. -/

namespace Sys2Proof.Machine

/-! ### Reads -/

/-- Every command completes (R77, R83). -/
theorem exec_next (i : Instr) (s : State) : ∃ t, exec i s = .next t := by
  obtain ⟨e, h⟩ | ⟨d, h⟩ := exec_cases i s <;> exact ⟨_, h⟩

/-- A command that answers OK leaves `okEngine` and its response (`exec_cases` at a known status). -/
theorem exec_ok {i : Instr} {s t : State} {d : Block} (h : exec i s = .next t) (hok : t.rsp = some ⟨.ok, d⟩) :
    t = respond .ok d { s with eng := okEngine tables i s } := by
  obtain ⟨e, he⟩ | ⟨d', hd⟩ := exec_cases i s
  · obtain rfl := Host.Outcome.next.inj (he.symm.trans h)
    simp at hok
  · obtain rfl := Host.Outcome.next.inj (hd.symm.trans h)
    obtain rfl : d' = d := by simpa using hok
    rfl

/-- The five reads of R57 write no engine element (R34). -/
theorem okEngine_read {T : Tables} {i : Instr} {s : State}
    (hi : i.mnemonic ∈ ["RDRK", "RDTL", "RDTR", "RDTF", "RDST"]) : okEngine T i s = s.eng := by
  cases i with
  | nop | rdrk | rdtl | rdtr | rdtf | rdst => rfl
  | ldkey | kexp | enc | dec | clr => simp [Instr.mnemonic] at hi

/-- No command's response depends on the response before it. -/
theorem responseOn_respond (T : Tables) (i : Instr) (st : Status) (d : Block) (s : State) :
    responseOn T i (respond st d s) = responseOn T i s := rfl

/-- Settles O22: a read that answers OK only puts its response on the port, and `responseOn` does not see that. -/
theorem readsHaveNoSideEffect : Obligations.ReadsHaveNoSideEffect := by
  intro i s t d hi ht hok
  have hread : t = respond .ok d s := by rw [exec_ok ht hok, okEngine_read hi]
  subst hread
  refine ⟨rfl, ?_⟩
  obtain ⟨u, hu⟩ := exec_next i (respond .ok d s)
  have hresponse : u.rsp = some ⟨.ok, d⟩ := by
    rw [← execOn_tables] at ht hu
    rw [execOn_rsp hu, responseOn_respond, ← execOn_rsp ht, hok]
  rw [hu, exec_ok hu hresponse, okEngine_read hi]
  rfl

/-! ### The values that stand in the bits of a block -/

/-- Source bit i of a value read from a bit list (R11). -/
theorem srcBit_bitsAt {n : Nat} (bits : List Bool) (pos : Nat) {i : Nat} (h1 : 1 ≤ i) (hn : i ≤ n) :
    srcBit (bitsAt n bits pos) i = bits.getD (pos + (i - 1)) false := srcBit_ofSrcBits _ h1 hn

/-- A slice of a value read from a bit list is itself read from the list, further on (R12). -/
theorem srcSlice_bitsAt {n : Nat} (bits : List Bool) (pos : Nat) {a len : Nat} (h : a + len ≤ n) :
    srcSlice (bitsAt n bits pos) (a + 1) len = bitsAt len bits (pos + a) := by
  apply eq_of_srcBit
  intro i h1 hlen
  rw [srcBit_srcSlice _ h1 hlen (by omega) (by omega), srcBit_bitsAt _ _ (by omega) (by omega),
    srcBit_bitsAt _ _ h1 hlen]
  congr 1
  omega

/-- The value at place j of the joined bits of values of one width. -/
theorem bitsAt_flatMap {n : Nat} (hn : 0 < n) (vs : List (BitVec n)) {j : Nat} (hj : j < vs.length) :
    bitsAt n (vs.flatMap bitsOf) (n * j) = vs[j] := by
  have hcut := List.getElem_of_eq (cutBits_flatMap hn vs) (i := j) (by rwa [cutBits_flatMap hn])
  simpa [cutBits] using hcut

/-- A value is read back from its own bits. -/
theorem bitsAt_bitsOf {n : Nat} (v : BitVec n) : bitsAt n (bitsOf v) 0 = v := by
  simpa using bitsAt_head v []

/-- Byte j of eight packed bytes (R51, R52). -/
theorem srcSlice_packBytes (bs : Vector Byte 8) (j : Fin 8) :
    srcSlice (packBytes bs.toList) (8 * j.val + 1) 8 = bs[j] := by
  rw [packBytes, srcSlice_bitsAt _ _ (by omega), Nat.zero_add, bitsAt_flatMap (by decide) _ (by simp)]
  simp

/-- Settles O54: byte j stands in source bits 8j+1 .. 8j+8, which are bits 63-8j : 56-8j. -/
theorem packedByteOrder : Obligations.PackedByteOrder := by
  intro bs j
  have hbyte := srcSlice_packBytes bs j
  constructor
  · rw [← hbyte, srcSlice, show 64 + 1 - (8 * j.val + 1) - 8 = 56 - 8 * j.val by omega]
  · intro i h1 h8
    rw [← hbyte, srcBit_srcSlice _ h1 h8 (by omega) (by omega)]
    congr 1
    omega

/-! ### Hexadecimal digits -/

/-- Joined values of a width of k groups are cut one value at a time. -/
theorem cutBits_regroup {n m k : Nat} (hn : 0 < n) (hm : m = n * k) (vs : List (BitVec m)) :
    cutBits n (vs.flatMap bitsOf) = vs.flatMap fun v => cutBits n (bitsOf v) := by
  have hgroups : ∀ v : BitVec m, (cutBits n (bitsOf v)).flatMap bitsOf = bitsOf v := fun v =>
    flatMap_cutBits hn k _ (by rw [bitsOf_length, hm])
  calc cutBits n (vs.flatMap bitsOf)
      = cutBits n ((vs.flatMap fun v => cutBits n (bitsOf v)).flatMap bitsOf) := by
        simp only [List.flatMap_assoc, hgroups]
    _ = vs.flatMap fun v => cutBits n (bitsOf v) := cutBits_flatMap hn _

/-- Group m+1 of a block cut in fours is its source bits 4m+1 .. 4m+4 (R53). -/
theorem cutBits_block (B : Block) : cutBits 4 (bitsOf B) = (List.range 16).map fun m => srcSlice B (4 * m + 1) 4 := by
  rw [cutBits, bitsOf_length]
  refine List.map_congr_left fun m hm => ?_
  have hm : m < 16 := List.mem_range.mp hm
  conv_rhs => rw [← bitsAt_bitsOf B]
  rw [srcSlice_bitsAt _ _ (by omega), Nat.zero_add]

/-- The digit of a 4-bit value, by the table of digits (R215). -/
theorem getElem?_hexDigits (v : BitVec 4) :
    ['0', '1', '2', '3', '4', '5', '6', '7', '8', '9', 'A', 'B', 'C', 'D', 'E', 'F'][v.toNat]? = some (hexDigit v) := by
  revert v; decide

/-- The digits of joined blocks, block by block (R53, R215). -/
theorem bitsToHex_blocks (Bs : List Block) :
    bitsToHex (Bs.flatMap bitsOf) =
      Bs.flatMap fun B => (List.range 16).map fun m => hexDigit (srcSlice B (4 * m + 1) 4) := by
  rw [bitsToHex, cutBits_regroup (k := 16) (by decide) rfl, List.map_flatMap]
  simp only [cutBits_block, List.map_map, Function.comp_def]

/-- A bit list gives a digit for every four bits (R215). -/
theorem bitsToHex_length (bits : List Bool) : (bitsToHex bits).length = bits.length / 4 := by
  simp [bitsToHex, cutBits]

/-- `encrypt` on an idle engine: the digits of the blocks' images under BlockFn, and an idle engine (R219). -/
theorem encrypt_idle (T : Tables) {s : State} (plaintext secret : List Char) (hp : s.eng.phase = .idle)
    (hn : s.rsp = none) :
    ∃ t, encrypt T s plaintext secret = (t, .text (bitsToHex
        (((textBlocks plaintext).map fun b => blockFn T b (ks T (keyOfSecret secret)) .enc).flatMap bitsOf))) ∧
      t.eng.phase = .idle ∧ t.rsp = none := by
  obtain ⟨t, hsend, htp, htn⟩ := sendMessage_blocks T .enc s (keyOfSecret secret) (textBlocks plaintext) hp hn
  have hmsg : encMsg (textBlocks plaintext) = (textBlocks plaintext).map fun b => issueMove (blockInstr .enc) b := rfl
  exact ⟨t, by rw [encrypt, hmsg, hsend], htp, htn⟩

/-- Settles O57: `sendMessage_blocks` gives the images, `bitsToHex_blocks` their digits. -/
theorem encryptIsEcb : Obligations.EncryptIsEcb := by
  intro T s plaintext secret hp hn
  obtain ⟨t, hencrypt, htp, htn⟩ := encrypt_idle T plaintext secret hp hn
  refine ⟨t, _, hencrypt, ?_, ?_, htp, htn⟩
  · rw [bitsToHex_blocks]
    simp only [getElem?_hexDigits, List.flatMap_def, List.map_flatten, List.map_map, Function.comp_def]
  · rw [bitsToHex_length, flatMap_bitsOf_length, List.length_map]
    omega

end Sys2Proof.Machine
end

section
/-! SUPPORT. The encoding (30_encoding.md): the decoder answers exactly the well-formed command whose encoding the word
is, so the opcode map, the illegal words and the number of legal ones are read off the encoder. -/

namespace Sys2Proof

/-! ### The decoder is the inverse of the encoder -/

/-- The opcode of a word of format X (R70, R72). -/
theorem opField_encodeX {op : CmdWord} {idx : Nat} (hop : op.toNat < 16) (hidx : idx ≤ 31) :
    (opField (encodeX op idx)).toNat = op.toNat := by
  rw [opField_toNat, encodeX_toNat hop hidx]
  omega

/-- A word of format X gives its index back (R72, R84). -/
theorem decodeX_encodeX {op : CmdWord} {idx : Nat} (mk : Nat → Instr) (hop : op.toNat < 16) (hidx : idx ≤ 31) :
    decodeX (encodeX op idx) mk = .ok (mk idx) := by
  refine decodeX_ok.mpr ⟨?_, congrArg mk ?_⟩ <;> rw [encodeX_toNat hop hidx] <;> omega

/-- The index of a well-formed command of format X fits its field (R72). -/
theorem idxFits_iff {idx : Nat} : idxFits idx = true ↔ idx ≤ 31 := decide_eq_true_iff

/-- Settles O1: in format N by evaluation, in format X by the fields of the encoded word. -/
theorem decodeAfterEncode : Obligations.DecodeAfterEncode := by
  intro i hwf
  cases i with
  | nop | ldkey | kexp | enc | dec | rdst | clr => rfl
  | rdrk idx | rdtl idx | rdtr idx | rdtf idx =>
    have hidx : idx ≤ 31 := idxFits_iff.mp hwf
    rw [encode, decode, opField_encodeX (by decide) hidx]
    exact decodeX_encodeX _ (by decide) hidx

/-- The decoder answers only well-formed commands (R72, R84). -/
theorem wellFormed_of_decode {w : CmdWord} {i : Instr} (h : decode w = .ok i) : i.wellFormed = true := by
  unfold decode at h
  split at h
  case h_6 | h_7 | h_8 | h_9 =>
    obtain ⟨-, rfl⟩ := decodeX_ok.mp h
    exact idxFits_iff.mpr (by omega)
  case h_12 => cases h
  all_goals
    obtain ⟨-, rfl⟩ := decodeN_ok.mp h
    rfl

/-- Settles O2. -/
theorem encodeAfterDecode : Obligations.EncodeAfterDecode := fun _ _ h => ⟨wellFormed_of_decode h, encode_of_decode h⟩

/-- A word decodes to the well-formed command that it encodes, and to no other (R71, R72, R76). -/
theorem decode_eq_ok_iff {w : CmdWord} {i : Instr} : decode w = .ok i ↔ i.wellFormed = true ∧ encode i = w :=
  ⟨encodeAfterDecode w i, fun ⟨hwf, hw⟩ => hw ▸ decodeAfterEncode i hwf⟩

/-! ### The opcode map -/

/-- A command of format N: its mask 0xFFFF keeps the whole word (R71, R75). -/
theorem decode_eq_iff_matchN {w : CmdWord} {i : Instr} (hwf : i.wellFormed = true) :
    decode w = .ok i ↔ w &&& 0xFFFF#16 = encode i := by
  rw [show w &&& 0xFFFF#16 = w from BitVec.and_allOnes, decode_eq_ok_iff, and_iff_right hwf, eq_comm]

/-- A word of format X, by its match and its index (R72, R75, R84). -/
theorem encodeX_eq_iff {w op : CmdWord} {idx : Nat} (hop : op.toNat < 16) :
    idx ≤ 31 ∧ encodeX op idx = w ↔ w &&& 0xFE0F#16 = op ∧ idx = idxField w := by
  rw [and_xMask_eq w op hop, idxField_eq]
  constructor
  · rintro ⟨hidx, rfl⟩
    rw [encodeX_toNat hop hidx]
    omega
  · rintro ⟨⟨hupper, hfield⟩, rfl⟩
    exact ⟨by omega, encodeX_of_fields hfield hupper⟩

/-- A command of format X (R72, R75). -/
theorem decode_eq_iff_matchX {w op : CmdWord} {idx : Nat} {mk : Nat → Instr} (hop : op.toNat < 16)
    (hwf : (mk idx).wellFormed = idxFits idx) (hencode : encode (mk idx) = encodeX op idx) :
    decode w = .ok (mk idx) ↔ w &&& 0xFE0F#16 = op ∧ idx = idxField w := by
  rw [decode_eq_ok_iff, hwf, idxFits_iff, hencode, encodeX_eq_iff hop]

/-- Settles O3: one row for each command, by its format. -/
theorem decodeIsTheOpcodeMap : Obligations.DecodeIsTheOpcodeMap := fun _ =>
  ⟨decode_eq_iff_matchN rfl, decode_eq_iff_matchN rfl, decode_eq_iff_matchN rfl, decode_eq_iff_matchN rfl,
    decode_eq_iff_matchN rfl,
    fun _ => decode_eq_iff_matchX (by decide) rfl rfl, fun _ => decode_eq_iff_matchX (by decide) rfl rfl,
    fun _ => decode_eq_iff_matchX (by decide) rfl rfl, fun _ => decode_eq_iff_matchX (by decide) rfl rfl,
    decode_eq_iff_matchN rfl, decode_eq_iff_matchN rfl⟩

/-! ### The illegal words -/

/-- Format N rejects a word with any of CMD[15:4] set (R71). -/
theorem decodeN_error_iff {w : CmdWord} {i : Instr} : (∃ why, decodeN w i = .error why) ↔ upperN w ≠ 0#12 := by
  unfold decodeN
  split <;> simp [*]

/-- Format X rejects a word with any of CMD[15:9] set (R72). -/
theorem decodeX_error_iff {w : CmdWord} {mk : Nat → Instr} : (∃ why, decodeX w mk = .error why) ↔ upperX w ≠ 0#7 := by
  unfold decodeX
  split <;> simp [*]

/-- The three cases of R76. -/
theorem decode_error_iff (w : CmdWord) : (∃ why, decode w = .error why) ↔
    0xB ≤ (opField w).toNat ∨
    ((opField w).toNat ∈ [0x0, 0x1, 0x2, 0x3, 0x4, 0x9, 0xA] ∧ upperN w ≠ 0#12) ∨
    ((opField w).toNat ∈ [0x5, 0x6, 0x7, 0x8] ∧ upperX w ≠ 0#7) := by
  unfold decode
  split
  case h_12 =>
    simp only [imp_false] at *
    have hreserved : 0xB ≤ (opField w).toNat := by omega
    simp [hreserved]
  case h_6 | h_7 | h_8 | h_9 => simp [decodeX_error_iff, *]
  all_goals simp [decodeN_error_iff, *]

/-- The commands that a word can select: seven of format N and, for each index, four of format X (R75). -/
def wellFormedInstrs : List Instr :=
  [.nop, .ldkey, .kexp, .enc, .dec, .rdst, .clr] ++
    (List.range 32).flatMap fun idx => [.rdrk idx, .rdtl idx, .rdtr idx, .rdtf idx]

theorem mem_wellFormedInstrs {i : Instr} : i ∈ wellFormedInstrs ↔ i.wellFormed = true := by
  cases i <;> simp [wellFormedInstrs, Instr.wellFormed, idxFits_iff, Nat.lt_succ_iff]

theorem nodup_wellFormedInstrs : wellFormedInstrs.Nodup := by
  rw [wellFormedInstrs, List.nodup_append, List.nodup_flatMap]
  refine ⟨by decide, ⟨fun idx _ => by simp, List.nodup_range.imp fun hne => ?_⟩, ?_⟩
  · simp [Function.onFun, hne.symm]
  · rintro i hi _ hj rfl
    cases i with
    | nop | ldkey | kexp | enc | dec | rdst | clr => simp at hj
    | rdrk | rdtl | rdtr | rdtf => simp at hi

/-- Different well-formed commands have different words (R76). -/
theorem encode_injective {i j : Instr} (hi : i.wellFormed = true) (hj : j.wellFormed = true)
    (h : encode i = encode j) : i = j :=
  Except.ok.inj ((decodeAfterEncode i hi).symm.trans (h ▸ decodeAfterEncode j hj))

/-- The legal words are the encodings of the well-formed commands. -/
theorem exists_decode_iff_mem {w : CmdWord} : (∃ i, decode w = .ok i) ↔ w ∈ wellFormedInstrs.map encode := by
  simp only [decode_eq_ok_iff, List.mem_map, mem_wellFormedInstrs]

/-- Settles O4: the three cases by the opcode, the number of legal words by the commands they encode. -/
theorem illegalWords : Obligations.IllegalWords := by
  refine ⟨decode_error_iff, fun w why d s hw => ?_, ⟨wellFormedInstrs.map encode, rfl, ?_, fun w => exists_decode_iff_mem⟩,
    fun w => ?_⟩
  · simp only [Machine.issue, Machine.issueOn, hw]
    rfl
  · exact nodup_wellFormedInstrs.map_on fun i hi j hj =>
      encode_injective (mem_wellFormedInstrs.mp hi) (mem_wellFormedInstrs.mp hj)
  · exact ⟨fun h => (encode_of_decode h).symm, fun h => h ▸ rfl⟩

end Sys2Proof
end

section
/-! SUPPORT. The listing syntax (R80): a line is cut at its first space, and its operand's digits are read back. -/

namespace Sys2Proof.Machine

/-! ### Operands -/

/-- A decimal digit is read back. -/
theorem digitValue_ofNat {n : Nat} (h : n < 10) : digitValue (Char.ofNat (0x30 + n)) = some n := by
  have hdigits : ∀ n : Fin 10, digitValue (Char.ofNat (0x30 + n.val)) = some n.val := by decide
  exact hdigits ⟨n, h⟩

/-- An index that fits its field is read back, from one digit or two (R72, R80). -/
theorem readIndex_decimal {idx : Nat} (h : idx ≤ 31) : readIndex (decimal idx) = some idx := by
  unfold decimal
  split
  · exact digitValue_ofNat (by omega)
  · have hvalue : 10 * (idx / 10) + idx % 10 = idx := Nat.div_add_mod idx 10
    have htens : digitValue (Char.ofNat (0x30 + idx / 10)) = some (idx / 10) := digitValue_ofNat (by omega)
    have hunits : digitValue (Char.ofNat (0x30 + idx % 10)) = some (idx % 10) := digitValue_ofNat (by omega)
    simp [readIndex, htens, hunits, hvalue, h]

/-- A 64-bit operand is read back from its sixteen digits (R53, R80). -/
theorem readWord_bitsToHex (w : Block) : readWord ('0' :: 'x' :: bitsToHex (bitsOf w)) = some w := by
  have hlength : (bitsToHex (bitsOf w)).length = 16 := by rw [bitsToHex_length, bitsOf_length]
  have hvalues : (bitsToHex (bitsOf w)).mapM hexValue = some (cutBits 4 (bitsOf w)) := mapM_hexValue _
  have hbits : (cutBits 4 (bitsOf w)).flatMap bitsOf = bitsOf w :=
    flatMap_cutBits (by decide) 16 _ (bitsOf_length w)
  rw [readWord, if_pos hlength, hvalues, Option.map_some, hbits, bitsAt_bitsOf]

/-! ### Lines -/

/-- A mnemonic has no space in it. -/
theorem mnemonicText_no_space (i : Instr) : ∀ ch ∈ mnemonicText i, (ch != ' ') = true := by
  cases i <;> simp [mnemonicText]

/-- The mnemonic of a line is what stands before its first space. -/
theorem takeWhile_line (i : Instr) (operand : List Char) :
    (mnemonicText i ++ ' ' :: operand).takeWhile (· != ' ') = mnemonicText i := by
  rw [List.takeWhile_append_of_pos (mnemonicText_no_space i)]
  simp

/-- The operand of a line is what stands after its first space. -/
theorem drop_dropWhile_line (i : Instr) (operand : List Char) :
    ((mnemonicText i ++ ' ' :: operand).dropWhile (· != ' ')).drop 1 = operand := by
  rw [List.dropWhile_append_of_pos (mnemonicText_no_space i)]
  simp

/-- Settles O6: by the operand that a command's line shows. -/
theorem assembleListing : Obligations.AssembleListing := by
  intro i wdata hwf
  cases i with
  | nop | kexp | rdst | clr => rfl
  | ldkey | enc | dec =>
    change assemble (mnemonicText _ ++ ' ' :: '0' :: 'x' :: bitsToHex (bitsOf wdata)) = _
    simp only [assemble, takeWhile_line, drop_dropWhile_line, readWord_bitsToHex]
    rfl
  | rdrk idx | rdtl idx | rdtr idx | rdtf idx =>
    change assemble (mnemonicText _ ++ ' ' :: decimal idx) = _
    simp only [assemble, takeWhile_line, drop_dropWhile_line, readIndex_decimal (idxFits_iff.mp hwf)]
    rfl

end Sys2Proof.Machine
end

section
/-! SUPPORT. The command port (30_encoding.md R77, R82, R83): an accepted word runs to one response; while a sequence
runs or a response is pending no word is accepted; reset comes before everything; and no state with the invariant stops. -/

namespace Sys2Proof.Machine

/-! ### Accepted words go on -/

/-- An accepted word runs to a next state, with the host's moves as they were (R83). -/
theorem issueOn_next (T : Tables) (w : CmdWord) (d : Block) (s : State) :
    ∃ t, issueOn T w d s = .next t ∧ t.moves = s.moves := by
  obtain ⟨i, -, hi⟩ | ⟨why, -, hi⟩ := issueOn_cases T w d s <;> rw [hi]
  · obtain ⟨e, he⟩ | ⟨r, hr⟩ := execOn_cases T i (sample d s)
    · exact ⟨_, he, rfl⟩
    · exact ⟨_, hr, rfl⟩
  · exact ⟨_, rfl, rfl⟩

/-- So does a word begun at micro-step grain. -/
theorem beginWord_next (T : Tables) (w : CmdWord) (d : Block) (s : State) : ∃ t, beginWord T w d s = .next t := by
  obtain ⟨-, -, h⟩ | ⟨dir, -, -, h⟩ | ⟨-, -, h⟩ := beginWord_cases T w d s
  · exact ⟨_, h⟩
  · exact ⟨_, h⟩
  · obtain ⟨t, ht, -⟩ := issueOn_next T w d s
    exact ⟨t, h.trans ht⟩

/-- `cmd_ready` (R82). -/
theorem cmdReady_eq_true {s : State} : cmdReady s = true ↔ s.eng.phase = .idle ∧ s.rsp = none := by
  simp [cmdReady]

/-- Settles O45: the word leaves one well-formed response on the port of an idle engine, and the host takes it. -/
theorem everyCommandResponds : Obligations.EveryCommandResponds := by
  intro s w d ms hp hn hm
  obtain ⟨t, ht, hmoves⟩ := issueOn_next tables w d { s with moves := ms }
  obtain ⟨hidle, htaken, r, hr, hinv⟩ := issueOn_responds (s := { s with moves := ms }) hp ht
  refine ⟨takeResponse t, r, ?_, ?_, ?_, cmdReady_eq_true.mpr ⟨?_, takeResponse_rsp t⟩, hinv⟩
  · rw [← stepOn_tables, step_command hp hn hm, ht, mapNext_next]
  · rw [takeResponse_taken, htaken, hr, Option.toList_some]
  · rw [takeResponse_moves, hmoves]
  · rw [takeResponse_eng, hidle]

/-! ### An idle engine -/

/-- The step of an idle engine is the host's move. -/
theorem stepOn_idle {T : Tables} {s : State} (hp : s.eng.phase = .idle) : stepOn T s = idleMove T s := by
  rw [stepOn, hp]

/-- Settles O47: by the host's next move. -/
theorem pendingResponseIsHeld : Obligations.PendingResponseIsHeld := by
  intro s hp
  have hstep : step s = idleMove tables s := stepOn_idle hp
  rw [hstep]
  refine ⟨fun r hr => ⟨?_, ?_, fun hm => ?_, fun ms hm => ?_, fun ms hm => ?_, fun w d ms hm => ?_⟩,
    fun hn => ⟨cmdReady_eq_true.mpr ⟨hp, hn⟩, ?_, fun hm => ?_, fun ms hm => ?_⟩⟩
  · simp [cmdReady, hr]
  · simp [rspValid, hr]
  · simp [idleMove, hm]
  · simp [idleMove, hm]
  · simp [idleMove, hm, takeResponse_eq, hr]
  · obtain hm | hm := hm <;> simp [idleMove, hm, takeResponse_eq, hr]
  · simp [rspValid, hn]
  · simp [idleMove, hm]
  · obtain hm | hm := hm <;> simp [idleMove, hm, takeResponse_of_none, hn]

/-- The host can make any move on an idle engine. -/
theorem idleMove_next (T : Tables) (s : State) : ∃ t, idleMove T s = .next t := by
  unfold idleMove
  split
  case h_2 w d ms _ =>
    obtain ⟨t, ht, -⟩ := issueOn_next T w d { s with moves := ms }
    split
    · exact ⟨_, rfl⟩
    · exact ⟨_, by rw [ht, mapNext_next]⟩
  case h_3 w d ms _ =>
    split
    · exact ⟨_, rfl⟩
    · exact beginWord_next T w d _
  all_goals exact ⟨_, rfl⟩

/-! ### A busy engine -/

/-- The step of a busy engine is a micro-step or a reset. -/
theorem stepOn_of_busy {T : Tables} {s : State} (hp : s.eng.phase ≠ .idle) : stepOn T s = busyMove T s := by
  cases h : s.eng.phase with
  | idle => contradiction
  | ks | bc => rw [stepOn, h]

/-- A micro-step neither reads nor writes the host's moves. -/
theorem microStep_withMoves (T : Tables) (s : State) (ms : List HostMove) :
    microStep T { s with moves := ms } = mapNext (fun t => { t with moves := ms }) (microStep T s) := by
  unfold microStep
  dsimp only
  repeat' split
  all_goals rfl

/-- While a sequence runs, a word or a `take` waits and a `wait` passes: the same micro-step is made (log 6). -/
theorem busyMove_eq_microStep {T : Tables} {s : State} {rest : List HostMove}
    (hm : (∃ w d ms, s.moves = .command w d :: ms ∨ s.moves = .start w d :: ms) ∧ rest = s.moves ∨
      (∃ ms, s.moves = .take :: ms) ∧ rest = s.moves ∨ s.moves = .wait :: rest) :
    busyMove T s = microStep T { s with moves := rest } := by
  obtain ⟨⟨w, d, ms, hm | hm⟩, rfl⟩ | ⟨⟨ms, hm⟩, rfl⟩ | hm := hm <;> rw [busyMove, hm]
  all_goals simp [← hm]

/-- Settles O46: both sides are the same micro-step, with the host's moves left aside. -/
theorem busyAcceptsNothing : Obligations.BusyAcceptsNothing := by
  intro s rest hp hm
  have hstep : step s = microStep tables { s with moves := rest } :=
    (stepOn_of_busy hp).trans (busyMove_eq_microStep hm)
  have hquiet : step { s with moves := [] } = microStep tables { s with moves := [] } :=
    stepOn_busy (s := { s with moves := [] }) hp rfl
  refine ⟨by simp [cmdReady, hp], ?_⟩
  rw [hstep, hquiet]
  exact microStep_withMoves tables { s with moves := [] } rest

/-! ### Reset -/

/-- A reset is the whole step, in any phase (R270, R271). -/
theorem stepOn_reset {T : Tables} {s : State} {ms : List HostMove} (hm : s.moves = .reset :: ms) :
    stepOn T s = .next (resetPort { s with moves := ms }) := by
  by_cases hp : s.eng.phase = .idle
  · rw [stepOn_idle hp, idleMove, hm]
  · rw [stepOn_of_busy hp, busyMove, hm]

/-- Settles O48. -/
theorem resetDominates : Obligations.ResetDominates := fun _ _ hm =>
  ⟨stepOn_reset hm, cmdReady_eq_true.mpr ⟨rfl, rfl⟩⟩

/-! ### The fault is out of reach -/

/-- With the invariant, the sequencer has a rule for its state: RND < 16 in the key sequence and RND ≤ 16 in the block
sequence (R133, R134, R172 to R174). -/
theorem EngineInv.microStep_next {T : Tables} {s : State} (h : EngineInv T s.eng) : ∃ t, microStep T s = .next t := by
  unfold microStep
  split
  · exact ⟨_, rfl⟩
  · rename_i hks
    rw [if_pos (h.ks_running hks).1]
    dsimp only
    split <;> exact ⟨_, rfl⟩
  · rename_i hbc
    have hrnd : s.eng.rnd.toNat ≤ 16 := (h.bc_running hbc).1
    split
    · exact ⟨_, rfl⟩
    · rw [if_pos (by omega)]
      exact ⟨_, rfl⟩

/-- A busy engine with the invariant goes on, whatever the host's move. -/
theorem EngineInv.busyMove_next {T : Tables} {s : State} (h : EngineInv T s.eng) : ∃ t, busyMove T s = .next t := by
  unfold busyMove
  split
  case h_6 => exact ⟨_, rfl⟩
  all_goals exact EngineInv.microStep_next h

/-- A state with the invariant goes on (R83, R246). -/
theorem EngineInv.proceeds {T : Tables} {s : State} (h : EngineInv T s.eng) : Proceeds T s := by
  by_cases hp : s.eng.phase = .idle
  · rw [Proceeds, stepOn_idle hp]
    exact idleMove_next T s
  · rw [Proceeds, stepOn_of_busy hp]
    exact h.busyMove_next

/-- Settles O52. -/
theorem invariantStatesProceed : Obligations.InvariantStatesProceed :=
  ⟨fun _ _ h => h.engine.proceeds, fun _ h => h.engine.proceeds⟩

end Sys2Proof.Machine
end

section
/-! SUPPORT. The primitives bit by bit (40_primitives_and_tables.md R100 to R105) and the substitution step built on them
(42_round_function.md R153): output bits by what they copy, an S-box's entry by the value of its row and its column. -/

namespace Sys2Proof.Machine

/-! ### Permute -/

/-- A table's entry by position, 0 beyond its end. -/
theorem getD_eq_getElem?_getD {m : Nat} (T : Vector Nat m) (k : Nat) : T.getD k 0 = T[k]?.getD 0 := by
  rw [Vector.getD, Array.getD_eq_getD_getElem?, Vector.getElem?_toArray]

/-- R100 on the entry itself. -/
theorem srcBit_permute_entry {n m : Nat} (V : BitVec n) (T : Vector Nat m) (j : Fin m) :
    srcBit (permute V T) (j.val + 1) = srcBit V T[j] := by
  rw [srcBit_permute V T (by omega) (by omega), Nat.add_sub_cancel, getD_eq_getElem?_getD,
    Fin.getElem_fin, Vector.getElem?_eq_getElem j.isLt, Option.getD_some]

/-- A source bit in hardware numbering: `V<i>` is `V[n - 1 - i0]` for the 0-indexed position i0 = i - 1 (R11). -/
theorem srcBit_eq_getLsbD {n : Nat} (V : BitVec n) {i : Nat} (h : 1 ≤ i) : srcBit V i = V.getLsbD (n - 1 - (i - 1)) := by
  rw [srcBit, show n - i = n - 1 - (i - 1) by omega]

/-- Settles O27: the second form is the first in hardware numbering. -/
theorem permuteGathers : Obligations.PermuteGathers := by
  intro n m V T hT j
  have hgather : srcBit (permute V T) (j.val + 1) = srcBit V T[j] := srcBit_permute_entry V T j
  refine ⟨hgather, ?_⟩
  rwa [srcBit_eq_getLsbD _ (by omega), srcBit_eq_getLsbD _ (hT j).1, Nat.add_sub_cancel] at hgather

/-- A gather by B is undone by the gather by A, when B undoes the entries of A (R105). -/
theorem permute_permute_of_undoes {m : Nat} {A B : Vector Nat m} (hA : InRange A m) (h : UndoesEntries A B)
    (V : BitVec m) : permute (permute V B) A = V := by
  apply eq_of_srcBit
  intro i h1 hm
  obtain ⟨j, rfl⟩ : ∃ j : Fin m, i = j.val + 1 :=
    ⟨⟨i - 1, by omega⟩, (Nat.sub_add_cancel h1).symm⟩
  have hentry : B.getD (A[j] - 1) 0 = j.val + 1 := by rw [getD_eq_getElem?_getD, h j, Option.getD_some]
  rw [srcBit_permute_entry, srcBit_permute V B (hA j).1 (hA j).2, hentry]

/-- Settles O29. -/
theorem inversePermutation : Obligations.InversePermutation := fun _ hT V =>
  ⟨permute_permute_of_undoes hT.fp_perm.1 hT.ip_of_fp V, permute_permute_of_undoes hT.ip_perm.1 hT.fp_of_ip V⟩

/-! ### RotL -/

/-- The bit formula of R101. -/
theorem srcBit_rotL {n : Nat} (V : BitVec n) {s i : Nat} (hs : s < n) (h1 : 1 ≤ i) (hn : i ≤ n) :
    srcBit (rotL V s) i = srcBit V ((i - 1 + s) % n + 1) := by
  rw [srcBit, srcBit, getLsbD_rotL]
  by_cases hwrap : i + s ≤ n
  · have hsource : (i - 1 + s) % n = i - 1 + s := Nat.mod_eq_of_lt (by omega)
    have hout : V.getLsbD (n - s + (n - i)) = false := BitVec.getLsbD_of_ge _ _ (by omega)
    rw [hsource, hout, decide_eq_true (show n - i < n by omega), decide_eq_false (show ¬ n - i < s by omega),
      show n - i - s = n - (i - 1 + s + 1) by omega]
    simp
  · have hsource : (i - 1 + s) % n = i - 1 + s - n := by
      rw [Nat.mod_eq_sub_mod (by omega), Nat.mod_eq_of_lt (by omega)]
    rw [hsource, decide_eq_true (show n - i < s by omega),
      show n - s + (n - i) = n - (i - 1 + s - n + 1) by omega]
    simp

/-- The integer formula of R101: the part shifted right is below 2^n already. -/
theorem toNat_rotL {n : Nat} (V : BitVec n) (s : Nat) :
    (rotL V s).toNat = (V.toNat <<< s ||| V.toNat >>> (n - s)) % 2 ^ n := by
  have hright : V.toNat >>> (n - s) < 2 ^ n := (V >>> (n - s)).isLt
  rw [rotL, BitVec.toNat_or, BitVec.toNat_shiftLeft, BitVec.toNat_ushiftRight, Nat.or_mod_two_pow,
    Nat.mod_eq_of_lt hright]

theorem rotL_zero {n : Nat} (V : BitVec n) : rotL V 0 = V := by
  simp [rotL, BitVec.ushiftRight_eq_zero]

/-- Settles O28. -/
theorem rotLRotates : Obligations.RotLRotates := fun _ V _ hs =>
  ⟨fun _ h1 hn => srcBit_rotL V hs h1 hn, toNat_rotL V _, rotL_zero V⟩

/-! ### Substitution -/

/-- A slice, most significant bit first (R11, R12). -/
theorem srcSlice_eq_ofSrcBits {n : Nat} (V : BitVec n) {a len : Nat} (ha : 1 ≤ a) (hn : a + len ≤ n + 1) :
    srcSlice V a len = ofSrcBits len fun j => srcBit V (a + j) := by
  apply eq_of_srcBit
  intro i h1 hlen
  rw [srcBit_srcSlice V h1 hlen ha hn, srcBit_ofSrcBits _ h1 hlen, Nat.add_sub_assoc h1]

/-- The value of an S-box's row (R102). -/
theorem toNat_sboxRow (g : BitVec 6) : (sboxRow g).toNat = 2 * (srcBit g 1).toNat + (srcBit g 6).toNat := by
  simp [sboxRow, ofSrcBits, BitVec.toNat_concat, Nat.mul_comm]

/-- The value of an S-box's column (R102). -/
theorem toNat_sboxCol (g : BitVec 6) : (sboxCol g).toNat =
    8 * (srcBit g 2).toNat + 4 * (srcBit g 3).toNat + 2 * (srcBit g 4).toNat + (srcBit g 5).toNat := by
  rw [sboxCol, srcSlice_eq_ofSrcBits g (by decide) (by decide)]
  simp only [ofSrcBits, BitVec.toNat_concat, BitVec.toNat_ofNat, Nat.reduceAdd]
  omega

/-- The bits of group i are `Y<6i-5 .. 6i>` (R153); i is the group's number less one. -/
theorem srcBit_sboxGroup (Y : RoundKey) (i : Fin 8) {b : Nat} (h1 : 1 ≤ b) (h6 : b ≤ 6) :
    srcBit (sboxGroup Y i) b = srcBit Y (6 * i.val + b) := by
  rw [sboxGroup, srcBit_srcSlice Y h1 h6 (by omega) (by omega)]
  congr 1
  omega

/-- The entry that a look-up reads, by the numbers of its row and its column (R102). -/
theorem some_sboxLookup (T : Tables) (i : Fin 8) (g : BitVec 6) :
    some (sboxLookup T i g) = T.s[i][(sboxRow g).toNat]?.bind fun r => r[(sboxCol g).toNat]? := by
  rw [Vector.getElem?_eq_getElem (sboxRow g).isLt, Option.bind_some, Vector.getElem?_eq_getElem (sboxCol g).isLt]
  rfl

/-- The output of S-box i stands at `Z[35-4i : 32-4i]` (R153); i is the S-box's number less one. -/
theorem extractLsb'_substitute (T : Tables) (Y : RoundKey) (i : Fin 8) :
    (substitute T Y).extractLsb' (28 - 4 * i.val) 4 = sboxLookup T i (sboxGroup Y i) := by
  unfold substitute
  fin_cases i
  all_goals
    simp (disch := decide) only [BitVec.extractLsb'_append_eq_of_le, BitVec.extractLsb'_append_eq_right,
      BitVec.extractLsb'_eq_self, Nat.reduceMul, Nat.reduceSub]
    rfl

/-- Settles O38: the place of an S-box's output, then its entry by the bits of its group. -/
theorem substitutionStep : Obligations.SubstitutionStep := by
  intro T Y i
  dsimp only
  rw [extractLsb'_substitute, some_sboxLookup, toNat_sboxRow, toNat_sboxCol]
  repeat rw [srcBit_sboxGroup Y i (by decide) (by decide)]

/-! ### The constant tables -/

/-- Settles O30: by the sixteen entries. -/
theorem shiftSchedule : Obligations.ShiftSchedule := by
  constructor <;> decide

/-- Settles O31, entry by entry; E names the positions 1 and 4 twice, among others. -/
theorem machineTablesWellFormed : Obligations.MachineTablesWellFormed where
  ip_perm := by decide +kernel
  fp_perm := by decide +kernel
  fp_of_ip := by decide +kernel
  ip_of_fp := by decide +kernel
  pc1_range := by decide +kernel
  pc2_range := by decide +kernel
  e_range := by decide +kernel
  e_repeats := ⟨1, 4, by decide, by decide +kernel, by decide +kernel⟩
  p_perm := by decide +kernel

end Sys2Proof.Machine
end

section
/-! SUPPORT. The key schedule (41_key_schedule.md): rotations add up, so the halves after n rounds are C₀ and D₀ rotated by
the first n shifts; what LDKEY, KEXP and RDRK answer; and the two micro-steps of KEXP as steps of the machine. -/

namespace Sys2Proof.Machine

/-! ### The schedule as a function -/

/-- A rotation by the whole width is none (log 23 for the value there). -/
theorem rotL_width {n : Nat} (V : BitVec n) : rotL V n = V := by
  simp [rotL]

/-- Rotations add up, as far as the width. -/
theorem rotL_rotL {n : Nat} (V : BitVec n) {a b : Nat} (h : a + b ≤ n) : rotL (rotL V a) b = rotL V (a + b) := by
  obtain rfl | hb0 := Nat.eq_zero_or_pos b
  · rw [rotL_zero, Nat.add_zero]
  obtain rfl | ha0 := Nat.eq_zero_or_pos a
  · rw [rotL_zero, Nat.zero_add]
  apply eq_of_srcBit
  intro i h1 hi
  have hbits : srcBit (rotL (rotL V a) b) i = srcBit V ((i - 1 + (a + b)) % n + 1) := by
    rw [srcBit_rotL _ (by omega) h1 hi, srcBit_rotL _ (by omega) (by omega) (Nat.mod_lt _ (by omega)),
      Nat.succ_sub_one, Nat.mod_add_mod, Nat.add_assoc, Nat.add_comm b a]
  rw [hbits]
  obtain hlt | rfl := Nat.lt_or_eq_of_le h
  · rw [srcBit_rotL _ hlt h1 hi]
  · rw [rotL_width, Nat.add_mod_right, Nat.mod_eq_of_lt (by omega), Nat.sub_add_cancel h1]

/-- SHIFT[1] + ... + SHIFT[n] (R104). -/
def shiftTotal (n : Nat) : Nat := (shift.toList.take n).sum

theorem shiftTotal_succ {n : Nat} (h : n < 16) : shiftTotal (n + 1) = shiftTotal n + shift[n] :=
  List.sum_take_succ shift.toList n h

/-- All sixteen shifts make one full turn (R104, R136). -/
theorem shiftTotal_all : shiftTotal 16 = 28 := by decide

theorem shiftTotal_le {n : Nat} (h : n ≤ 16) : shiftTotal n ≤ 28 :=
  shiftTotal_all ▸ ((List.take_sublist_take_left h).sum_le_sum fun _ _ => Nat.zero_le _)

/-- The halves after n rounds are the first ones, rotated by the shifts so far (R130). -/
theorem ksHalves_eq_rotL (T : Tables) (k : Block) {n : Nat} (h : n ≤ 16) :
    ksHalves T k n = (rotL (ksStart T k).1 (shiftTotal n), rotL (ksStart T k).2 (shiftTotal n)) := by
  induction n with
  | zero => rw [show shiftTotal 0 = 0 from rfl, rotL_zero, rotL_zero, ksHalves]
  | succ n ih =>
    have hsum : shiftTotal n + shift[n] = shiftTotal (n + 1) := (shiftTotal_succ h).symm
    have hle : shiftTotal n + shift[n] ≤ 28 := hsum ▸ shiftTotal_le h
    rw [ksHalves_succ T k h, ih (by omega), ksRotate, Fin.getElem_fin, rotL_rotL _ hle, rotL_rotL _ hle, hsum]

/-- A round key is selected from the halves of its round (R130). -/
theorem ks_getElem (T : Tables) (k : Block) (i : Fin 16) :
    (ks T k)[i] = ksSelect T (ksHalves T k (i.val + 1)) := by
  simp [ks]

/-- Settles O33. -/
theorem scheduleRotationsAccumulate : Obligations.ScheduleRotationsAccumulate := by
  intro T k i total C D
  have hhalves : ksHalves T k (i.val + 1) = (C, D) := ksHalves_eq_rotL T k i.isLt
  exact ⟨hhalves, by rw [ks_getElem, hhalves, ksSelect]⟩

/-- The halves are back at their start after sixteen rounds (R136). -/
theorem ksHalves_sixteen (T : Tables) (k : Block) : ksHalves T k 16 = ksHalves T k 0 := by
  rw [ksHalves_eq_rotL T k (le_refl 16), shiftTotal_all, rotL_width, rotL_width, ksHalves]

/-! ### LDKEY and KEXP -/

/-- Settles O8. -/
theorem ldkeyEffect : Obligations.LdkeyEffect :=
  ⟨rfl, fun _ h => (encode_of_decode h).symm, fun _ => rfl⟩

/-- Settles O9: over every TABLES by KL, with `runKexp_eq` for the sequence; then at the machine's tables. -/
theorem kexpEffect : Obligations.KexpEffect := by
  unfold Obligations.KexpEffect
  intro done failed
  have hok : ∀ (T : Tables) (s : State), s.eng.kl = true → execOn T .kexp s = .next (done T s) := by
    intro T s hkl
    rw [execOn_kexp_ok hkl, runKexp_eq]
    rfl
  have hnokey : ∀ (T : Tables) (s : State), s.eng.kl = false → execOn T .kexp s = .next (failed s) :=
    fun T s hkl => execOn_kexp_nokey hkl
  refine ⟨rfl, fun w h => decode_eq_kexp.mp h, fun s hkl => ?_, fun s hkl => ?_, fun T s => ?_⟩
  · rw [← execOn_tables, hok tables s hkl]
  · rw [← execOn_tables, hnokey tables s hkl]
  · cases hkl : s.eng.kl with
    | true => exact hok T s hkl
    | false => exact hnokey T s hkl

/-- A KEXP that answers OK has run its sequence (`exec_ok` in closed form). -/
theorem exec_kexp_answered {s t : State} (h : exec .kexp s = .next t) (hok : t.rsp = some ⟨.ok, 0#64⟩) :
    t.eng.rk = ks tables s.eng.key ∧ t.eng.kv = true := by
  have heng : t.eng = runKexp tables s.eng := by rw [exec_ok h hok, respond_eng, okEngine]
  rw [heng, runKexp_eq]
  exact ⟨rfl, rfl⟩

/-! ### RDRK -/

/-- RDRK with a legal index and valid round keys. -/
theorem exec_rdrk_ok {s : State} {idx : Nat} (h : RoundIndex idx) (hkv : s.eng.kv = true) :
    exec (.rdrk idx) s = .next (respond .ok (zext64 (s.eng.RK idx h)) s) := by
  rw [exec, execRdrk, dif_pos h, if_pos hkv]

/-- RDRK with an index outside 1..16, whatever KV is. -/
theorem exec_rdrk_badidx {s : State} {idx : Nat} (h : ¬ RoundIndex idx) :
    exec (.rdrk idx) s = .next (raise .badidx s) := by
  rw [exec, execRdrk, dif_neg h]

/-- RDRK with a legal index and no valid round keys. -/
theorem exec_rdrk_nosched {s : State} {idx : Nat} (h : RoundIndex idx) (hkv : s.eng.kv = false) :
    exec (.rdrk idx) s = .next (raise .nosched s) := by
  rw [exec, execRdrk, dif_pos h, if_neg (by simp [hkv])]

/-- Settles O10: the checks in their order, the index before KV. -/
theorem rdrkEffect : Obligations.RdrkEffect :=
  ⟨fun _ hidx => decodeAfterEncode (.rdrk _) (idxFits_iff.mpr hidx),
    fun _ i hkv => exec_rdrk_ok ⟨by omega, i.isLt⟩ hkv,
    fun _ _ hidx => exec_rdrk_badidx (by omega),
    fun _ _ h1 h16 hkv => exec_rdrk_nosched ⟨h1, h16⟩ hkv⟩

/-- What RDRK reads when it answers OK with valid round keys. -/
theorem exec_rdrk_answers_iff {s : State} {idx : Nat} {d : Block} (hkv : s.eng.kv = true) :
    (∃ u, exec (.rdrk idx) s = .next u ∧ u.rsp = some ⟨.ok, d⟩) ↔
      ∃ h : RoundIndex idx, d = zext64 (s.eng.RK idx h) := by
  by_cases h : RoundIndex idx
  · simp [exec_rdrk_ok h hkv, exists_prop_of_true h, eq_comm]
  · simp [exec_rdrk_badidx h, h]

/-- A placed narrow value keeps its bound (R56). -/
theorem toNat_zext64_lt {n : Nat} (v : BitVec n) : (zext64 v).toNat < 2 ^ n := by
  rw [zext64, BitVec.toNat_setWidth]
  exact (Nat.mod_le _ _).trans_lt v.isLt

/-- Settles O34. -/
theorem scheduleShape : Obligations.ScheduleShape := by
  refine ⟨fun T k => ⟨ksHalves_sixteen T k, ?_⟩, fun s t idx ht hok => ?_, fun s s' t t' hkey ht ht' hok hok' => ?_⟩
  · rw [← ksHalves_sixteen]
    exact ks_getElem T k 15
  · have hkv : t.eng.kv = true := (exec_kexp_answered ht hok).2
    refine ⟨⟨fun ⟨u, d, hu, hd⟩ => ?_, fun h => ⟨_, _, exec_rdrk_ok h hkv, rfl⟩⟩, fun u d hu hd => ?_⟩
    · exact ((exec_rdrk_answers_iff hkv).mp ⟨u, hu, hd⟩).1
    · obtain ⟨h, rfl⟩ := (exec_rdrk_answers_iff hkv).mp ⟨u, hu, hd⟩
      exact toNat_zext64_lt _
  · rw [(exec_kexp_answered ht hok).1, (exec_kexp_answered ht' hok').1, hkey]

/-! ### The micro-steps of KEXP -/

/-- KEXP begun at micro-step grain with a loaded key (R133). -/
theorem beginWord_kexp {T : Tables} {d : Block} {s : State} (hkl : s.eng.kl = true) :
    beginWord T 0x0002#16 d s = .next { s with eng := ksInit T s.eng, wdata := d } := by
  have hd : decode 0x0002#16 = .ok .kexp := rfl
  simp [beginWord, hd, beginInstr, hkl, sample]

/-- Settles O35. -/
theorem ksInitStep : Obligations.KsInitStep := by
  intro s d ms hp hkl hn hm
  rw [← stepOn_tables, stepOn_start hp hn hm, beginWord_kexp (s := { s with moves := ms }) hkl]
  rfl

/-- A KS_ROUND as a step of the machine: PHASE is IDLE after round 16 alone, and the response comes with it (R134). -/
theorem stepOn_ksRound {T : Tables} {s : State} (i : Fin 16) (hp : s.eng.phase = .ks)
    (hrnd : s.eng.rnd = BitVec.ofNat 5 i.val) (hm : s.moves = []) :
    stepOn T s = .next { s with
      eng := ksRoundAt T i s.eng
      rsp := if i.val + 1 = 16 then some ⟨.ok, 0#64⟩ else s.rsp } := by
  have hlt : s.eng.rnd.toNat < 16 := by rw [hrnd, ofNat5_toNat (by omega)]; exact i.isLt
  rw [stepOn_busy (by simp [hp]) hm]
  simp only [microStep, hp, hlt, if_true, ksRound_at i.isLt hrnd]
  by_cases hlast : i.val + 1 = 16
  · simp [ksRoundAt, hlast, respond]
  · simp [ksRoundAt, hlast, hp]

/-- Settles O36. -/
theorem ksRoundStep : Obligations.KsRoundStep := by
  intro s i hp hrnd hm
  rw [← stepOn_tables, stepOn_ksRound i hp hrnd hm, ksRoundAt, hp]
  rfl

end Sys2Proof.Machine
end

section
/-! SUPPORT. The round function (42_round_function.md): a permuted value is told by the bits its table names, which gives
the expansion of the two constant halves; f in one line; and BC_ROUND as a step of the machine and as a round of BlockFn. -/

namespace Sys2Proof.Machine

/-! ### Expansion -/

/-- A value whose bits are those the table names is the permuted value (R100, read backwards). -/
theorem permute_eq_of_entries {n m : Nat} {V : BitVec n} {T : Vector Nat m} {W : BitVec m}
    (h : ∀ j : Fin m, srcBit V T[j] = srcBit W (j.val + 1)) : permute V T = W := by
  apply eq_of_srcBit
  intro i h1 hm
  obtain ⟨j, rfl⟩ : ∃ j : Fin m, i = j.val + 1 := ⟨⟨i - 1, by omega⟩, (Nat.sub_add_cancel h1).symm⟩
  rw [srcBit_permute_entry, h j]

theorem srcBit_zeros {n : Nat} (i : Nat) : srcBit 0#n i = false := BitVec.getLsbD_zero

theorem srcBit_allOnes {n i : Nat} (h1 : 1 ≤ i) (hn : i ≤ n) : srcBit (BitVec.allOnes n) i = true := by
  rw [srcBit, BitVec.getLsbD_allOnes, decide_eq_true_iff]
  omega

/-- Any table gathers zeros from zeros. -/
theorem permute_zeros {n m : Nat} (T : Vector Nat m) : permute 0#n T = 0#m :=
  permute_eq_of_entries fun j => by rw [srcBit_zeros, srcBit_zeros]

/-- A table in range gathers ones from ones; an entry 0 would gather a zero (log 23). -/
theorem permute_allOnes {n m : Nat} {T : Vector Nat m} (hT : InRange T n) :
    permute (BitVec.allOnes n) T = BitVec.allOnes m :=
  permute_eq_of_entries fun j => by
    rw [srcBit_allOnes (hT j).1 (hT j).2, srcBit_allOnes (Nat.le_add_left 1 j.val) j.isLt]

/-- Settles O37: of well-formedness, the all-ones half alone needs something, the range of E. -/
theorem expansionStep : Obligations.ExpansionStep := fun T hT =>
  ⟨fun R j => srcBit_permute_entry R T.e j, permute_zeros T.e, permute_allOnes hT.e_range⟩

/-! ### A round -/

/-- f as one composition (R150 to R154). -/
theorem roundF_eq (T : Tables) (R : Half) (K : RoundKey) :
    roundF T R K = permute (substitute T (permute R T.e ^^^ K)) T.p := rfl

/-- The round key in the rule's own numbers: round r = i + 1 takes RK[r] or RK[17 - r], and RK[n] stands at n - 1 (R171). -/
theorem roundKeyFor_eq (dir : Direction) (rks : RoundKeySet) (i : Fin 16) :
    roundKeyFor dir rks i = if dir = .enc then rks[i] else rks[17 - (i.val + 1) - 1] := by
  cases dir with
  | enc => rfl
  | dec => simp only [roundKeyFor, reduceCtorEq, if_false, show 17 - (i.val + 1) - 1 = 15 - i.val by omega]

/-- A BC_ROUND as a step of the machine: the engine's round and nothing else (R173). -/
theorem stepOn_bcRound {T : Tables} {s : State} (i : Fin 16) (hp : s.eng.phase = .bc)
    (hrnd : s.eng.rnd = BitVec.ofNat 5 i.val) (hm : s.moves = []) :
    stepOn T s = .next { s with eng := bcRoundAt T i s.eng } := by
  have hlt : s.eng.rnd.toNat < 16 := by rw [hrnd, ofNat5_toNat (by omega)]; exact i.isLt
  rw [stepOn_busy (by simp [hp]) hm]
  simp only [microStep, hp, hlt, if_true, bcRound_at i.isLt hrnd]

/-- A round of BlockFn: R moves to the left, and L xor f(R, K) becomes the right half (R170). -/
theorem blockHalves_round (T : Tables) (B : Block) (rks : RoundKeySet) (dir : Direction) (i : Fin 16) :
    blockHalves T B rks dir (i.val + 1) =
      ((blockHalves T B rks dir i.val).2, (blockHalves T B rks dir i.val).1 ^^^ blockF T B rks dir i) :=
  blockHalves_succ T B rks dir i.isLt

/-- Settles O40: the step is one BC_ROUND; f and the halves of BlockFn are the model's own, with the key in the rule's
numbers. -/
theorem bcRoundStep : Obligations.BcRoundStep := by
  refine ⟨?step, roundF_eq, ?block⟩
  case step =>
    intro s i hp hrnd hm
    dsimp only
    rw [← stepOn_tables, stepOn_bcRound i hp hrnd hm, ← roundKeyFor_eq]
    rfl
  case block =>
    intro T B rks dir
    refine ⟨rfl, rfl, fun i => ?_, rfl⟩
    have hF : blockF T B rks dir i = _ := roundF_eq T (blockHalves T B rks dir i.val).2 (roundKeyFor dir rks i)
    rw [roundKeyFor_eq] at hF
    have hround := blockHalves_round T B rks dir i
    rw [hF] at hround
    exact ⟨hF, congrArg Prod.fst hround, congrArg Prod.snd hround⟩

end Sys2Proof.Machine
end

section
/-! SUPPORT. The block cipher (43_block_cipher.md): BlockFn in the other direction runs the same rounds backwards (R180,
R182); what ENC, DEC and the trace reads answer; and the first and the last micro-step of a block command. -/

namespace Sys2Proof.Machine

/-! ### BlockFn in the other direction -/

/-- The other direction (R27). -/
def Direction.other : Direction → Direction
  | .enc => .dec
  | .dec => .enc

/-- The other direction takes the round keys in reverse order (R171). -/
theorem roundKeyFor_other (dir : Direction) (rks : RoundKeySet) (i : Fin 16) :
    roundKeyFor dir.other rks i = roundKeyFor dir rks i.rev := by
  have hrev : 15 - i.val = i.rev.val := by rw [Fin.val_rev]; omega
  have hback : i.val = 15 - i.rev.val := by omega
  cases dir with
  | enc => simp only [Direction.other, roundKeyFor, Fin.getElem_fin, hrev]
  | dec => simp only [Direction.other, roundKeyFor, Fin.getElem_fin, ← hback]

/-- A round is undone by the same round on the exchanged halves: xor is its own inverse. -/
theorem feistel_swap_feistel (T : Tables) (K : RoundKey) (lr : Half × Half) :
    feistel T K (feistel T K lr).swap = lr.swap := by
  obtain ⟨L, R⟩ := lr
  simp [feistel]

/-- IP takes the output of a block back to the halves it was made from, R on the left (R105). -/
theorem blockStart_blockFinish {T : Tables} (hT : T.WellFormed) (lr : Half × Half) :
    blockStart T (blockFinish T lr) = lr.swap := by
  obtain ⟨hleft, hright⟩ := srcSlice_of_append lr.2 lr.1
  rw [blockStart, blockFinish, (inversePermutation T hT _).2, hleft, hright, Prod.swap]

/-- FP of the first halves, L on the left, is the block (R105). -/
theorem blockFinish_swap_blockStart {T : Tables} (hT : T.WellFormed) (B : Block) :
    blockFinish T (blockStart T B).swap = B := by
  have hjoin : (blockStart T B).1 ++ (blockStart T B).2 = permute B T.ip := srcSlice_append rfl _
  rw [blockFinish, Prod.fst_swap, Prod.snd_swap, hjoin, (inversePermutation T hT B).1]

/-- The halves of the run back, exchanged, are those of the run forth, last ones first (R182). -/
theorem blockHalves_other {T : Tables} (hT : T.WellFormed) (B : Block) (rks : RoundKeySet) (dir : Direction) {n : Nat}
    (h : n ≤ 16) :
    blockHalves T (blockFn T B rks dir) rks dir.other n = (blockHalves T B rks dir (16 - n)).swap := by
  induction n with
  | zero => exact blockStart_blockFinish hT _
  | succ n ih =>
    have hforth : blockHalves T B rks dir (16 - n) =
        feistel T (roundKeyFor dir rks (Fin.rev ⟨n, h⟩)) (blockHalves T B rks dir (16 - (n + 1))) := by
      rw [show 16 - n = 16 - (n + 1) + 1 by omega]
      exact blockHalves_succ T B rks dir (by omega)
    rw [blockHalves_succ _ _ _ _ h, ih (by omega), roundKeyFor_other, hforth, feistel_swap_feistel]

/-- The run back computes the outputs of f of the run forth, last one first (R182). -/
theorem blockF_other {T : Tables} (hT : T.WellFormed) (B : Block) (rks : RoundKeySet) (dir : Direction) (i : Fin 16) :
    blockF T (blockFn T B rks dir) rks dir.other i = blockF T B rks dir i.rev := by
  have hleft : (blockHalves T B rks dir (16 - i.val)).1 = (blockHalves T B rks dir i.rev.val).2 := by
    rw [show 16 - i.val = i.rev.val + 1 by rw [Fin.val_rev]; omega, blockHalves_round]
  rw [blockF, blockHalves_other hT B rks dir (by omega), roundKeyFor_other, Prod.snd_swap, hleft, blockF]

/-- BlockFn in the other direction undoes BlockFn (R180). -/
theorem blockFn_other {T : Tables} (hT : T.WellFormed) (B : Block) (rks : RoundKeySet) (dir : Direction) :
    blockFn T (blockFn T B rks dir) rks dir.other = B := by
  rw [blockFn, blockHalves_other hT B rks dir (le_refl 16)]
  exact blockFinish_swap_blockStart hT B

/-! ### ENC and DEC -/

/-- ENC or DEC with valid round keys, for `exec`: the one state it leaves. -/
theorem exec_block_next {dir : Direction} {s t : State} (hkv : s.eng.kv = true)
    (h : exec (blockInstr dir) s = .next t) :
    t = respond .ok (blockFn tables s.wdata s.eng.rk dir) { s with eng := runBlock tables s.wdata dir s.eng } := by
  rw [← execOn_tables, execOn_block dir hkv] at h
  exact (Host.Outcome.next.inj h).symm

/-- A command that KV decides between two outcomes over every TABLES does so at the machine's. -/
theorem effects_by_kv {i : Instr} {done : Tables → State → State} {failed : State → State}
    (hok : ∀ T s, s.eng.kv = true → execOn T i s = .next (done T s))
    (hnosched : ∀ T s, s.eng.kv = false → execOn T i s = .next (failed s)) :
    (∀ s : State, s.eng.kv = true → exec i s = .next (done tables s)) ∧
    (∀ s : State, s.eng.kv = false → exec i s = .next (failed s)) ∧
    (∀ (T : Tables) (s : State), execOn T i s = .next (if s.eng.kv then done T s else failed s)) := by
  refine ⟨fun s hkv => ?_, fun s hkv => ?_, fun T s => ?_⟩
  · rw [← execOn_tables, hok tables s hkv]
  · rw [← execOn_tables, hnosched tables s hkv]
  · cases hkv : s.eng.kv with
    | true => exact hok T s hkv
    | false => exact hnosched T s hkv

/-- Settles O11: by KV, with `runBlock_eq` for the sequence. -/
theorem encEffect : Obligations.EncEffect := by
  unfold Obligations.EncEffect
  intro done failed
  have hok : ∀ (T : Tables) (s : State), s.eng.kv = true → execOn T .enc s = .next (done T s) := by
    intro T s hkv
    rw [execOn_enc_ok hkv, runBlock_eq]
    rfl
  exact ⟨rfl, fun _ => decode_eq_enc.mp, effects_by_kv hok fun _ _ hkv => (execOn_block_nosched hkv).1⟩

/-- Settles O12, as O11. -/
theorem decEffect : Obligations.DecEffect := by
  unfold Obligations.DecEffect
  intro done failed
  have hok : ∀ (T : Tables) (s : State), s.eng.kv = true → execOn T .dec s = .next (done T s) := by
    intro T s hkv
    rw [execOn_dec_ok hkv, runBlock_eq]
    rfl
  exact ⟨rfl, fun _ => decode_eq_dec.mp, effects_by_kv hok fun _ _ hkv => (execOn_block_nosched hkv).2⟩

/-- Settles O26: `responseOn` reads KV, WDATA and RK alone for these two commands. -/
theorem blockIndependence : Obligations.BlockIndependence := by
  intro i s s' t t' hi hkv hkv' hwdata hrk ht ht'
  have hresponse : responseOn tables i s = responseOn tables i s' := by
    obtain rfl | rfl := hi <;> simp only [responseOn, hkv, hkv', hwdata, hrk]
  rw [← execOn_tables] at ht ht'
  rw [execOn_rsp ht, execOn_rsp ht', hresponse]

/-- Settles O42: in the engine, each command is BlockFn at the machine's tables. -/
theorem inverseLaw : Obligations.InverseLaw := by
  refine ⟨fun T hT rks B => ⟨blockFn_other hT B rks .enc, blockFn_other hT B rks .dec⟩, ?_⟩
  intro i j s t u y hij hkv ht hok hkvu hrk hwdata
  obtain ⟨dir, rfl, rfl⟩ : ∃ dir : Direction, i = blockInstr dir ∧ j = blockInstr dir.other := by
    obtain ⟨rfl, rfl⟩ | ⟨rfl, rfl⟩ := hij
    exacts [⟨.enc, rfl, rfl⟩, ⟨.dec, rfl, rfl⟩]
  obtain rfl := exec_block_next hkv ht
  obtain ⟨v, hv⟩ := exec_next (blockInstr dir.other) u
  refine ⟨v, hv, ?_⟩
  have hy : u.wdata = blockFn tables s.wdata s.eng.rk dir := by simpa [hwdata] using hok.symm
  have hkeys : u.eng.rk = s.eng.rk := by rw [hrk, respond_eng, runBlock_eq]
  rw [exec_block_next hkvu hv, respond_rsp, hy, hkeys, blockFn_other machineTablesWellFormed]

/-- Settles O43: the halves by `blockHalves_round`, the mirror by `blockHalves_other` and `blockF_other`. -/
theorem traceMirror : Obligations.TraceMirror := by
  intro s t u v y hkv ht hok hkvu hrk hwdata hv
  obtain rfl := exec_block_next (dir := .enc) hkv ht
  obtain rfl := exec_block_next (dir := .dec) hkvu hv
  have hy : u.wdata = blockFn tables s.wdata s.eng.rk .enc := by simpa [hwdata] using hok.symm
  have hkeys : u.eng.rk = s.eng.rk := by rw [hrk, respond_eng, runBlock_eq]
  have hhalves (j : Fin 17) := blockHalves_other machineTablesWellFormed s.wdata s.eng.rk .enc (n := j.val) (by omega)
  have hf (i : Fin 16) := blockF_other machineTablesWellFormed s.wdata s.eng.rk .enc i
  simp only [respond_eng, runBlock_eq, Vector.getElem_ofFn, Fin.getElem_fin, hy, hkeys]
  refine ⟨fun i => ?_, fun j => ?_, fun i => ?_⟩
  · rw [blockHalves_round]
    exact ⟨rfl, rfl⟩
  · exact ⟨congrArg Prod.fst (hhalves j), congrArg Prod.snd (hhalves j)⟩
  · exact (hf i).trans (congrArg _ (Fin.ext (show 16 - (i.val + 1) = 15 - i.val by omega)))

/-! ### The trace reads -/

/-- A trace read with a legal index and a valid trace. -/
theorem traceRead_ok {s : State} (value : Half) (htv : s.eng.tv = true) :
    traceRead value s = .next (respond .ok (zext64 value) s) := by
  rw [traceRead, if_pos htv]

/-- A trace read with a legal index and no valid trace. -/
theorem traceRead_notrace {s : State} (value : Half) (htv : s.eng.tv = false) :
    traceRead value s = .next (raise .notrace s) := by
  rw [traceRead, if_neg (by simp [htv])]

/-! The index is checked before TV (R177 to R179). -/

theorem exec_rdtl_index {s : State} {idx : Nat} (h : HalfIndex idx) :
    exec (.rdtl idx) s = traceRead (s.eng.TL idx h) s := dif_pos h

theorem exec_rdtl_badidx {s : State} {idx : Nat} (h : ¬ HalfIndex idx) :
    exec (.rdtl idx) s = .next (raise .badidx s) := dif_neg h

theorem exec_rdtr_index {s : State} {idx : Nat} (h : HalfIndex idx) :
    exec (.rdtr idx) s = traceRead (s.eng.TR idx h) s := dif_pos h

theorem exec_rdtr_badidx {s : State} {idx : Nat} (h : ¬ HalfIndex idx) :
    exec (.rdtr idx) s = .next (raise .badidx s) := dif_neg h

theorem exec_rdtf_index {s : State} {idx : Nat} (h : RoundIndex idx) :
    exec (.rdtf idx) s = traceRead (s.eng.TF idx h) s := dif_pos h

theorem exec_rdtf_badidx {s : State} {idx : Nat} (h : ¬ RoundIndex idx) :
    exec (.rdtf idx) s = .next (raise .badidx s) := dif_neg h

/-- Settles O13. -/
theorem rdtlEffect : Obligations.RdtlEffect :=
  ⟨fun _ hidx => decodeAfterEncode (.rdtl _) (idxFits_iff.mpr hidx),
    fun _ j htv => (exec_rdtl_index (Nat.le_of_lt_succ j.isLt)).trans (traceRead_ok _ htv),
    fun _ _ hidx => exec_rdtl_badidx (Nat.not_le_of_gt hidx),
    fun _ _ hidx htv => (exec_rdtl_index hidx).trans (traceRead_notrace _ htv)⟩

/-- Settles O14. -/
theorem rdtrEffect : Obligations.RdtrEffect :=
  ⟨fun _ hidx => decodeAfterEncode (.rdtr _) (idxFits_iff.mpr hidx),
    fun _ j htv => (exec_rdtr_index (Nat.le_of_lt_succ j.isLt)).trans (traceRead_ok _ htv),
    fun _ _ hidx => exec_rdtr_badidx (Nat.not_le_of_gt hidx),
    fun _ _ hidx htv => (exec_rdtr_index hidx).trans (traceRead_notrace _ htv)⟩

/-- Settles O15: index 0 is outside, as there is no TF[0]. -/
theorem rdtfEffect : Obligations.RdtfEffect :=
  ⟨fun _ hidx => decodeAfterEncode (.rdtf _) (idxFits_iff.mpr hidx),
    fun _ i htv => (exec_rdtf_index ⟨by omega, i.isLt⟩).trans (traceRead_ok _ htv),
    fun _ _ hidx => exec_rdtf_badidx (by omega),
    fun _ _ h1 h16 htv => (exec_rdtf_index ⟨h1, h16⟩).trans (traceRead_notrace _ htv)⟩

/-! ### The micro-steps of ENC and DEC -/

/-- ENC or DEC begun at micro-step grain with valid round keys (R172). -/
theorem beginWord_block {T : Tables} {w : CmdWord} {d : Block} {s : State} {dir : Direction}
    (hd : decode w = .ok (blockInstr dir)) (hkv : s.eng.kv = true) :
    beginWord T w d s = .next { s with eng := bcInit T d dir s.eng, wdata := d } := by
  have hbegin : beginWord T w d s = beginInstr T (blockInstr dir) (sample d s) := by rw [beginWord, hd]
  rw [hbegin]
  cases dir with
  | enc => exact if_pos hkv
  | dec => exact if_pos hkv

/-- Settles O39: source bits 1 to 32 of the permuted operand are its bits 63:32. -/
theorem bcInitStep : Obligations.BcInitStep := by
  intro s dir d ms hp hkv hn hm
  obtain ⟨w, hd, hm⟩ : ∃ w, decode w = .ok (blockInstr dir) ∧ s.moves = .start w d :: ms := by
    cases dir with
    | enc => exact ⟨_, rfl, hm⟩
    | dec => exact ⟨_, rfl, hm⟩
  rw [← stepOn_tables, stepOn_start hp hn hm, beginWord_block (s := { s with moves := ms }) hd hkv]
  rfl

/-- After sixteen rounds the next step of the machine is BC_FINAL, with the response (R174). -/
theorem stepOn_sixteenRounds {T : Tables} {s : State} (hp : s.eng.phase = .bc) (hrnd : s.eng.rnd = 16#5)
    (hm : s.moves = []) :
    stepOn T s = .next (respond .ok (bcFinal T s.eng).dout { s with eng := bcFinal T s.eng }) := by
  rw [stepOn_busy (by simp [hp]) hm]
  simp [microStep, hp, hrnd]

/-- Settles O41. -/
theorem bcFinalStep : Obligations.BcFinalStep := fun s hp hrnd hm => by
  rw [← stepOn_tables, stepOn_sixteenRounds hp hrnd hm]
  rfl

end Sys2Proof.Machine
end

section
/-! SUPPORT. The control commands (44_control.md): the fields of the status word, one by one (R30); the flags that can
stand together under the invariant (R201); and the whole effect of NOP, RDST and CLR (R200 to R202). -/

namespace Sys2Proof.Machine

/-! ### The fields of the status word -/

/-- `STATUS[3:0]` (R30): DIR, TV, KV, KL, the most significant first. -/
def statusFlags (e : Engine) : BitVec 4 :=
  e.dir.bit ++ BitVec.ofBool e.tv ++ BitVec.ofBool e.kv ++ BitVec.ofBool e.kl

/-- The status word cut at bit 4: the flags stand below the zero bits 7:4, ERR and the zero bits 63:13. -/
theorem statusWord_eq_append (e : Engine) : statusWord e = (0#51 ++ e.err ++ 0#4 : BitVec 60) ++ statusFlags e := by
  simp only [statusWord, statusFlags, BitVec.append_assoc, BitVec.cast_eq]

theorem statusWord_low (e : Engine) : (statusWord e).extractLsb' 0 4 = statusFlags e := by
  rw [statusWord_eq_append, BitVec.extractLsb'_append_eq_right]

theorem statusWord_above (e : Engine) {start len : Nat} (h : 4 ≤ start) :
    (statusWord e).extractLsb' start len = (0#51 ++ e.err ++ 0#4).extractLsb' (start - 4) len := by
  rw [statusWord_eq_append, BitVec.extractLsb'_append_eq_of_le h]

theorem statusWord_reserved (e : Engine) : (statusWord e).extractLsb' 4 4 = 0#4 := by
  rw [statusWord_above e (le_refl 4)]
  exact BitVec.extractLsb'_append_eq_right

theorem statusWord_err (e : Engine) : (statusWord e).extractLsb' 8 5 = e.err := by
  rw [statusWord_above e (by decide), BitVec.extractLsb'_append_eq_of_le (by decide)]
  exact BitVec.extractLsb'_append_eq_right

theorem statusWord_upper (e : Engine) : (statusWord e).extractLsb' 13 51 = 0#51 := by
  rw [statusWord_above e (by decide), BitVec.extractLsb'_append_eq_of_le (by decide),
    BitVec.extractLsb'_append_eq_of_le (by decide)]
  exact BitVec.extractLsb'_eq_self

theorem dir_bit_eq_ofBool (dir : Direction) : dir.bit = BitVec.ofBool (decide (dir = .dec)) := by
  cases dir <;> rfl

theorem statusWord_flag_bits (e : Engine) : (statusWord e).getLsbD 0 = e.kl ∧ (statusWord e).getLsbD 1 = e.kv ∧
    (statusWord e).getLsbD 2 = e.tv ∧ (statusWord e).getLsbD 3 = decide (e.dir = .dec) := by
  simp only [statusWord, BitVec.getLsbD_append, dir_bit_eq_ofBool]
  simp

/-! ### RDST -/

/-- Settles O16: the word is `statusWord`, read field by field. -/
theorem rdstEffect : Obligations.RdstEffect := by
  refine ⟨rfl, fun _ h => (encode_of_decode h).symm, fun s => ⟨statusWord s.eng, rfl, ?_⟩⟩
  obtain ⟨hkl, hkv, htv, hdir⟩ := statusWord_flag_bits s.eng
  exact ⟨hkl, hkv, htv, hdir, statusWord_reserved s.eng, statusWord_err s.eng, statusWord_upper s.eng⟩

/-- The flags an idle engine can show (R201): DIR = 1 needs TV, and KV and TV need KL. -/
theorem EngineInv.statusFlags_mem {T : Tables} {e : Engine} (h : EngineInv T e) (hp : e.phase = .idle) :
    statusFlags e ∈ [0x0#4, 0x1#4, 0x3#4, 0x5#4, 0x7#4, 0xD#4, 0xF#4] := by
  cases hdir : e.dir with
  | dec =>
    have htv : e.tv = true := h.dec_traced (by simp [hp]) hdir
    have hkl : e.kl = true := h.trace_loaded htv
    cases hkv : e.kv <;> simp [statusFlags, hdir, htv, hkl, hkv, Direction.bit]
  | enc =>
    cases hkl : e.kl with
    | false =>
      have hkv : e.kv = false := by simpa [hkl] using h.valid_loaded
      have htv : e.tv = false := by simpa [hkl] using h.trace_loaded
      simp [statusFlags, hdir, htv, hkl, hkv, Direction.bit]
    | true => cases htv : e.tv <;> cases hkv : e.kv <;> simp [statusFlags, hdir, htv, hkl, hkv, Direction.bit]

/-- Settles O53: RDST shows the flags of an engine at rest. -/
theorem reachableStatus : Obligations.ReachableStatus := by
  intro T s t d hinv hp ht hrsp
  obtain rfl := Host.Outcome.next.inj ht
  obtain rfl : statusWord s.eng = d := by simpa using hrsp
  rw [statusWord_low]
  exact hinv.engine.statusFlags_mem hp

/-! ### NOP and CLR -/

/-- Settles O7. -/
theorem nopEffect : Obligations.NopEffect :=
  ⟨rfl, fun _ h => (encode_of_decode h).symm, fun _ => rfl⟩

/-- Settles O17: the engine of the reset state is `Engine.reset`, which `clearEngine` writes. -/
theorem clrEffect : Obligations.ClrEffect :=
  ⟨rfl, fun _ h => (encode_of_decode h).symm, fun _ => rfl⟩

end Sys2Proof.Machine
end

section
/-! SUPPORT. The host software (45_host_driver.md): zero bytes fill a text's last block (R214), the strings `hexToBits`
refuses and the bits it gives for the others (R216, R217), and `decrypt` in closed form on an idle engine (R218, R220). -/

namespace Sys2Proof.Machine

/-! ### Secrets -/

/-- Settles O55: the eight zero bytes put behind a secret are more than it lacks, and `take` keeps those it lacks. -/
theorem normalizedSecret : Obligations.NormalizedSecret := by
  intro s
  refine ⟨by simp [normalizeSecret], fun hlong => ?_, fun hshort => ?_⟩
  · rw [normalizeSecret, List.take_append_of_le_length hlong]
  · rw [normalizeSecret, List.take_append, List.take_of_length_le hshort.le, List.take_replicate,
      Nat.min_eq_left (Nat.sub_le 8 _)]

/-! ### Zero bytes behind a text -/

/-- Values of zero are zero bits. -/
theorem flatMap_bitsOf_zeros (n m : Nat) : (List.replicate m 0#n).flatMap bitsOf = List.replicate (m * n) false := by
  have hzero : bitsOf 0#n = List.replicate n false := by simp [bitsOf, srcBit_zeros]
  rw [List.flatMap_replicate, hzero, List.flatten_replicate_replicate]

/-- Bytes filled up with zero bytes to whole blocks, at least one block (R214). -/
def padBytes (bs : List Byte) : List Byte :=
  bs ++ List.replicate (8 * max 1 ((bs.length + 7) / 8) - bs.length) 0#8

theorem padBytes_length (bs : List Byte) : (padBytes bs).length = 8 * max 1 ((bs.length + 7) / 8) := by
  rw [padBytes, List.length_append, List.length_replicate]
  omega

/-- Zero bits up to whole blocks behind bytes are zero bytes (R214). -/
theorem padRight_bytes (bs : List Byte) : padRight (bs.flatMap bitsOf) = (padBytes bs).flatMap bitsOf := by
  rw [padBytes, List.flatMap_append, flatMap_bitsOf_zeros]
  cases bs with
  | nil => rfl
  | cons b bs =>
    have hbits : ((b :: bs).flatMap bitsOf).length = 8 * (bs.length + 1) := flatMap_bitsOf_length (b :: bs)
    have hnonempty : ((b :: bs).flatMap bitsOf).isEmpty = false := by
      rw [List.isEmpty_eq_false_iff, ← List.length_pos_iff, hbits]
      omega
    rw [padRight, hnonempty, if_neg Bool.false_ne_true, hbits, missing64, List.length_cons]
    congr 2
    omega

/-- The blocks of a text are its padded bytes, eight a block (R214). -/
theorem textBlocks_eq (text : List Char) : textBlocks text = cutBits 64 ((padBytes (utf8Encode text)).flatMap bitsOf) := by
  rw [textBlocks, textToBits, padRight_bytes]

theorem padBytes_bits_length (bs : List Byte) :
    ((padBytes bs).flatMap bitsOf).length = 64 * max 1 ((bs.length + 7) / 8) := by
  rw [flatMap_bitsOf_length, padBytes_length]
  omega

theorem textBlocks_length (text : List Char) :
    (textBlocks text).length = max 1 (((utf8Encode text).length + 7) / 8) := by
  rw [textBlocks_eq, cutBits, List.length_map, List.length_range, padBytes_bits_length,
    Nat.mul_div_cancel_left _ (by decide)]

/-- The bytes of a text's blocks are its padded bytes (R214). -/
theorem cutBits_textBlocks (text : List Char) :
    cutBits 8 ((textBlocks text).flatMap bitsOf) = padBytes (utf8Encode text) := by
  rw [textBlocks_eq, flatMap_cutBits (by decide) _ _ (padBytes_bits_length _), cutBits_flatMap (by decide)]

/-- Settles O56. -/
theorem plaintextBlocks : Obligations.PlaintextBlocks := fun text => ⟨textBlocks_length text, cutBits_textBlocks text⟩

/-! ### Hexadecimal strings -/

/-- The characters with a value are the digits of either case (R216, R217). -/
theorem hexValue_eq_none_iff (ch : Char) : hexValue ch = none ↔
    ch ∉ ['0', '1', '2', '3', '4', '5', '6', '7', '8', '9', 'a', 'b', 'c', 'd', 'e', 'f',
      'A', 'B', 'C', 'D', 'E', 'F'] := by
  have hpoints : ch ∈ ['0', '1', '2', '3', '4', '5', '6', '7', '8', '9', 'a', 'b', 'c', 'd', 'e', 'f',
      'A', 'B', 'C', 'D', 'E', 'F'] ↔ (0x30 ≤ ch.toNat ∧ ch.toNat ≤ 0x39) ∨ (0x41 ≤ ch.toNat ∧ ch.toNat ≤ 0x46) ∨
        (0x61 ≤ ch.toNat ∧ ch.toNat ≤ 0x66) := by
    simp only [List.mem_cons, List.not_mem_nil, ← Char.toNat_inj, Char.reduceToNat, or_false]
    omega
  rw [hpoints, hexValue]
  split_ifs with hdecimal hupper hlower
  · simp [hdecimal]
  · simp [hupper]
  · simp [hlower]
  · simp only [true_iff]
    exact not_or.mpr ⟨hdecimal, not_or.mpr ⟨hupper, hlower⟩⟩

/-- A digit of either case has its place in the table as its value (R216). -/
theorem hexValue_of_table (ch : Char) (v : BitVec 4)
    (h : ['0', '1', '2', '3', '4', '5', '6', '7', '8', '9', 'A', 'B', 'C', 'D', 'E', 'F'][v.toNat]? = some ch ∨
      ['0', '1', '2', '3', '4', '5', '6', '7', '8', '9', 'a', 'b', 'c', 'd', 'e', 'f'][v.toNat]? = some ch) :
    hexValue ch = some v := by
  have hlower : ∀ v : BitVec 4,
      (['0', '1', '2', '3', '4', '5', '6', '7', '8', '9', 'a', 'b', 'c', 'd', 'e', 'f'][v.toNat]?).bind hexValue =
        some v := by decide
  obtain hup | hlow := h
  · rw [getElem?_hexDigits] at hup
    rw [← Option.some.inj hup, hexValue_hexDigit]
  · rw [← hlower v, hlow, Option.bind_some]

/-- Digits with these values are read as these values. -/
theorem mapM_hexValue_of_forall₂ {digits : List Char} {vs : List (BitVec 4)}
    (h : List.Forall₂ (fun ch v => hexValue ch = some v) digits vs) : digits.mapM hexValue = some vs := by
  induction h with
  | nil => rfl
  | cons hch _ ih => simp [List.mapM_cons, hch, ih]

/-- One character without a value leaves the whole string without. -/
theorem mapM_hexValue_eq_none_iff (digits : List Char) :
    digits.mapM hexValue = none ↔ ∃ ch ∈ digits, hexValue ch = none := by
  induction digits with
  | nil => simp
  | cons ch digits ih =>
    cases hch : hexValue ch with
    | none => simp [List.mapM_cons, hch]
    | some v => cases hds : digits.mapM hexValue <;> simpa [List.mapM_cons, hch, hds] using ih

/-- The malformed strings (R217). -/
theorem hexToBits_eq_none_iff (ws : Char → Bool) (hex : List Char) :
    hexToBits ws hex = none ↔
      strip ws hex = [] ∨ (strip ws hex).length % 2 = 1 ∨ ∃ ch ∈ strip ws hex, hexValue ch = none := by
  rw [hexToBits, ← mapM_hexValue_eq_none_iff, ← or_assoc]
  dsimp only
  split
  next hshape => simpa using Or.inl hshape
  next hshape =>
    rw [List.isEmpty_iff] at hshape
    cases (strip ws hex).mapM hexValue <;> simp [hshape]

/-- The bits of a string of digits: zero bits in front to a multiple of 64, then the digits' values (R216). -/
theorem hexToBits_eq_some {ws : Char → Bool} {hex : List Char} {vs : List (BitVec 4)} (hne : vs ≠ [])
    (heven : vs.length % 2 = 0) (h : List.Forall₂ (fun ch v => hexValue ch = some v) (strip ws hex) vs) :
    hexToBits ws hex = some (List.replicate (missing64 (4 * vs.length)) false ++ vs.flatMap bitsOf) := by
  have hlength : (strip ws hex).length = vs.length := h.length_eq
  have hshape : ¬ ((strip ws hex).isEmpty = true ∨ (strip ws hex).length % 2 = 1) := by
    rw [List.isEmpty_iff, ← List.length_eq_zero_iff, hlength, List.length_eq_zero_iff]
    exact not_or.mpr ⟨hne, by omega⟩
  rw [hexToBits, if_neg hshape, mapM_hexValue_of_forall₂ h, ← flatMap_bitsOf_length]
  rfl

/-! ### decrypt -/

/-- The machine sees no command of a malformed string (R217). -/
theorem decrypt_of_hexToBits_none {T : Tables} {ws : Char → Bool} {s : State} {hex secret : List Char}
    (h : hexToBits ws hex = none) : decrypt T ws s hex secret = (s, .inputError) := by
  rw [decrypt, h]

/-- Nothing that happens after the string is read is an input error (R217). -/
theorem decrypt_inputError_iff (T : Tables) (ws : Char → Bool) (s : State) (hex secret : List Char) :
    (decrypt T ws s hex secret).2 = .inputError ↔ hexToBits ws hex = none := by
  refine ⟨fun hreply => ?_, fun h => by rw [decrypt_of_hexToBits_none h]⟩
  unfold decrypt at hreply
  split at hreply
  · assumption
  · split at hreply
    · split at hreply <;> cases hreply
    · cases hreply

/-- Settles O58: by the strings `hexToBits` refuses. -/
theorem malformedCiphertext : Obligations.MalformedCiphertext := by
  intro T ws s hex secret malformed
  have hmalformed : hexToBits ws hex = none ↔ malformed := by
    simp only [hexToBits_eq_none_iff, hexValue_eq_none_iff, malformed]
  exact ⟨(decrypt_inputError_iff T ws s hex secret).trans hmalformed,
    fun h => by rw [decrypt_of_hexToBits_none (hmalformed.mpr h)]⟩

/-- `decrypt` on an idle engine: the text of the blocks' images under BlockFn backwards, or a decode failure, and an idle
engine (R218, R220). -/
theorem decrypt_idle (T : Tables) {ws : Char → Bool} {s : State} {hex : List Char} (secret : List Char)
    {blocks : List Block} (hp : s.eng.phase = .idle) (hn : s.rsp = none)
    (hbits : hexToBits ws hex = some (blocks.flatMap bitsOf)) :
    ∃ t, t.eng.phase = .idle ∧ t.rsp = none ∧ decrypt T ws s hex secret =
      (t, (bitsToText ws ((blocks.map fun b => blockFn T b (ks T (keyOfSecret secret)) .dec).flatMap bitsOf)).elim
        .decodeFailure .text) := by
  obtain ⟨t, hsend, htp, htn⟩ := sendMessage_blocks T .dec s (keyOfSecret secret) blocks hp hn
  have hmsg : decMsg blocks = blocks.map fun b => issueMove (blockInstr .dec) b := rfl
  refine ⟨t, htp, htn, ?_⟩
  simp only [decrypt, hbits, cutBits_flatMap (show 0 < 64 by decide), hmsg, hsend]
  cases bitsToText ws ((blocks.map fun b => blockFn T b (ks T (keyOfSecret secret)) .dec).flatMap bitsOf) <;> rfl

/-- Bits whose bytes are the UTF-8 of a text (R218). -/
theorem bitsToText_of_utf8 {ws : Char → Bool} {bits : List Bool} {text : List Char}
    (h : utf8Encode text = cutBits 8 bits) : bitsToText ws bits = some (strip ws (stripNul text)) := by
  rw [bitsToText, ← h, utf8Decode_utf8Encode, Option.map_some]

/-- Bits whose bytes are the UTF-8 of no text (R218). -/
theorem bitsToText_of_not_utf8 {ws : Char → Bool} {bits : List Bool} (h : ∀ text, utf8Encode text ≠ cutBits 8 bits) :
    bitsToText ws bits = none := by
  rw [bitsToText, Option.map_eq_none_iff, Option.eq_none_iff_forall_ne_some]
  exact fun text hdecode => h text (utf8DecodeFuel_sound hdecode)

/-- Settles O59: `hexToBits_eq_some` gives the bits, `decrypt_idle` the reply. -/
theorem decryptIsEcb : Obligations.DecryptIsEcb := by
  intro T ws s hex secret vs hp hn hne heven hdigits
  have hvalues : List.Forall₂ (fun ch v => hexValue ch = some v) (strip ws hex) vs := hdigits.imp hexValue_of_table
  have hbits := hexToBits_eq_some hne heven hvalues
  have hwhole : (List.replicate (missing64 (4 * vs.length)) false ++ vs.flatMap bitsOf).length =
      64 * ((4 * vs.length + 63) / 64) := by
    rw [List.length_append, List.length_replicate, flatMap_bitsOf_length, missing64]
    omega
  have hblocks := flatMap_cutBits (show 0 < 64 by decide) _ _ hwhole
  rw [← hblocks] at hbits
  obtain ⟨t, htp, htn, hreply⟩ := decrypt_idle T secret hp hn hbits
  refine ⟨_, _, t, Nat.mod_lt _ (by decide), hblocks, hbits, htp, htn, fun text htext => ?_, fun hnone => ?_⟩
  · rw [hreply, bitsToText_of_utf8 htext]
    rfl
  · rw [hreply, bitsToText_of_not_utf8 hnone]
    rfl

/-! ### decrypt after encrypt -/

/-- A list without a character of `ws` has none to strip. -/
theorem strip_of_forall_not {ws : Char → Bool} {text : List Char} (h : ∀ ch ∈ text, ws ch = false) :
    strip ws text = text := by
  have hkeep : ∀ l : List Char, (∀ ch ∈ l, ws ch = false) → l.dropWhile ws = l := fun l hl =>
    List.dropWhile_eq_self_iff.mpr fun hpos => by simp [hl _ (List.getElem_mem hpos)]
  rw [strip, hkeep text h, hkeep _ (fun ch hch => h ch (List.mem_reverse.mp hch)), List.reverse_reverse]

/-- U+0000 characters behind a text that does not end in one are all removed (R218). -/
theorem stripNul_append_nuls {text : List Char} (h : text.getLast? ≠ some (Char.ofNat 0)) (m : Nat) :
    stripNul (text ++ List.replicate m (Char.ofNat 0)) = text := by
  have hnuls : ∀ ch ∈ List.replicate m (Char.ofNat 0), (ch.toNat == 0) = true := fun ch hch => by
    rw [List.eq_of_mem_replicate hch]
    rfl
  have hstop : text.reverse.dropWhile (fun ch => ch.toNat == 0) = text.reverse := by
    rw [List.dropWhile_eq_self_iff]
    intro hpos hzero
    apply h
    rw [← List.head?_reverse, List.head?_eq_getElem?, List.getElem?_eq_getElem hpos, ← Char.ofNat_toNat text.reverse[0],
      beq_iff_eq.mp hzero]
  rw [stripNul, List.reverse_append, List.reverse_replicate, List.dropWhile_append_of_pos hnuls, hstop,
    List.reverse_reverse]

/-- A zero byte is the UTF-8 of U+0000, so padded bytes are the UTF-8 of the text with U+0000 behind it. -/
theorem utf8Encode_append_nuls (text : List Char) (m : Nat) :
    utf8Encode (text ++ List.replicate m (Char.ofNat 0)) = utf8Encode text ++ List.replicate m 0#8 := by
  have hnul : utf8Char (Char.ofNat 0) = List.replicate 1 0#8 := rfl
  rw [utf8Encode, List.flatMap_append, List.flatMap_replicate, hnul, List.flatten_replicate_replicate, Nat.mul_one]
  rfl

/-- A text is read back from its own blocks (R214, R218; 90_conflicts.md C6). -/
theorem bitsToText_textBlocks {ws : Char → Bool} {text : List Char} (hnul : text.getLast? ≠ some (Char.ofNat 0))
    (hws : strip ws text = text) : bitsToText ws ((textBlocks text).flatMap bitsOf) = some text := by
  have hutf8 := (utf8Encode_append_nuls text _).trans (cutBits_textBlocks text).symm
  rw [bitsToText_of_utf8 hutf8, stripNul_append_nuls hnul, hws]

/-- The digits of whole blocks are read back as their bits (R215, R216). -/
theorem hexToBits_bitsToHex {ws : Char → Bool} (hws : ∀ v, ws (hexDigit v) = false) {blocks : List Block}
    (hne : blocks ≠ []) : hexToBits ws (bitsToHex (blocks.flatMap bitsOf)) = some (blocks.flatMap bitsOf) := by
  have hpos : 0 < blocks.length := List.length_pos_iff.mpr hne
  have hbits : (blocks.flatMap bitsOf).length = 4 * (16 * blocks.length) := by
    rw [flatMap_bitsOf_length]
    omega
  have hlength : (cutBits 4 (blocks.flatMap bitsOf)).length = 16 * blocks.length := by
    simp [cutBits, hbits]
  have hstrip : strip ws (bitsToHex (blocks.flatMap bitsOf)) = (cutBits 4 (blocks.flatMap bitsOf)).map hexDigit :=
    strip_of_forall_not fun ch hch => by
      obtain ⟨v, -, rfl⟩ := List.mem_map.mp hch
      exact hws v
  have hvalues : List.Forall₂ (fun ch v => hexValue ch = some v) (strip ws (bitsToHex (blocks.flatMap bitsOf)))
      (cutBits 4 (blocks.flatMap bitsOf)) := by
    rw [hstrip, List.forall₂_map_left_iff, List.forall₂_same]
    exact fun v _ => hexValue_hexDigit v
  have hmissing : missing64 (4 * (16 * blocks.length)) = 0 := by
    rw [missing64]
    omega
  rw [hexToBits_eq_some (List.ne_nil_of_length_pos (by omega)) (by omega) hvalues, hlength, hmissing,
    List.replicate_zero, List.nil_append, flatMap_cutBits (by decide) _ _ hbits]

/-- Settles O60: the digits give back the images of the blocks, BlockFn backwards the blocks, and these the text. -/
theorem messageInverseLaw : Obligations.MessageInverseLaw := by
  intro T hT ws s t plaintext secret hex hp hn hdigits hnul hws hencrypt
  obtain ⟨u, hu, htp, htn⟩ := encrypt_idle T plaintext secret hp hn
  obtain ⟨rfl, hreply⟩ := Prod.mk.inj (hu.symm.trans hencrypt)
  obtain rfl := Reply.text.inj hreply
  have hne : textBlocks plaintext ≠ [] := List.ne_nil_of_length_pos (by rw [textBlocks_length]; omega)
  have hwsdigit : ∀ v, ws (hexDigit v) = false := fun v => hdigits _ (List.mem_of_getElem? (getElem?_hexDigits v))
  have hread := hexToBits_bitsToHex hwsdigit
    (blocks := (textBlocks plaintext).map fun b => blockFn T b (ks T (keyOfSecret secret)) .enc) (by simpa using hne)
  have hback : ∀ B, blockFn T (blockFn T B (ks T (keyOfSecret secret)) .enc) (ks T (keyOfSecret secret)) .dec = B :=
    fun B => blockFn_other hT B _ .enc
  obtain ⟨v, -, -, hdecrypt⟩ := decrypt_idle T secret htp htn hread
  simp only [List.map_map, Function.comp_def, hback, List.map_id'] at hdecrypt
  rw [hdecrypt, bitsToText_textBlocks hnul hws]
  rfl

end Sys2Proof.Machine
end

section
/-! SUPPORT. Errors (60_exceptions.md): the status of a command is the first check that fails, the index before the state
flag (R241 to R243), and a failing word does what `raise` does and nothing else (R245). -/

namespace Sys2Proof.Machine

/-! ### The status of a command -/

/-- The indices that RDRK and RDTF refuse (R241). -/
theorem roundIndex_iff {idx : Nat} : RoundIndex idx ↔ ¬ (idx = 0 ∨ 17 ≤ idx) := by
  rw [RoundIndex]
  omega

/-- The indices that RDTL and RDTR refuse (R241). -/
theorem halfIndex_iff {idx : Nat} : HalfIndex idx ↔ ¬ 17 ≤ idx := by
  rw [HalfIndex]
  omega

/-- A state check passes or fails with its error. -/
theorem flagCheck_code (flag : Bool) (d : Block) (e : Error) :
    (if flag then (⟨.ok, d⟩ : Response) else ⟨.fail e, 0#64⟩).stat.code = if flag then 0x0#4 else e.code := by
  cases flag <;> rfl

/-- The index check comes before the state check (R243). -/
theorem indexCheck_code {P Q : Prop} [Decidable P] [Decidable Q] (hindex : P ↔ ¬ Q) (flag : Bool) (d : P → Block)
    (e : Error) :
    (if h : P then if flag then (⟨.ok, d h⟩ : Response) else ⟨.fail e, 0#64⟩ else ⟨.fail .badidx, 0#64⟩).stat.code =
      if Q then 0x2#4 else if flag then 0x0#4 else e.code := by
  by_cases hQ : Q
  · rw [dif_neg (fun hP => hindex.mp hP hQ), if_pos hQ]
    rfl
  · rw [dif_pos (hindex.mpr hQ), if_neg hQ]
    exact flagCheck_code flag _ e

/-- Settles O19: `responseOn` makes the checks, with the index before the state flag. -/
theorem statusOfEveryCommand : Obligations.StatusOfEveryCommand := by
  intro i s
  obtain ⟨t, ht⟩ := exec_next i s
  refine ⟨t, responseOn tables i s, ht, execOn_rsp ((execOn_tables i s).trans ht), ?_⟩
  cases i with
  | nop | ldkey | rdst | clr => rfl
  | kexp => exact flagCheck_code s.eng.kl _ .nokey
  | enc | dec => exact flagCheck_code s.eng.kv _ .nosched
  | rdrk idx => exact indexCheck_code roundIndex_iff s.eng.kv _ .nosched
  | rdtl idx | rdtr idx => exact indexCheck_code halfIndex_iff s.eng.tv _ .notrace
  | rdtf idx => exact indexCheck_code roundIndex_iff s.eng.tv _ .notrace

/-! ### What a failing word does -/

/-- The response tells the error that was raised. -/
theorem raise_eq_of_rsp {e' e : Error} {s : State} {d : Block} (h : (raise e' s).rsp = some ⟨.fail e, d⟩) :
    raise e' s = raise e s := by
  obtain ⟨rfl, -⟩ : e' = e ∧ 0#64 = d := by simpa using h
  rfl

/-- A command that fails does what `raise` does (`exec_cases` at a known status). -/
theorem exec_fail {i : Instr} {s t : State} {e : Error} {d : Block} (h : exec i s = .next t)
    (hfail : t.rsp = some ⟨.fail e, d⟩) : t = raise e s := by
  obtain ⟨e', he⟩ | ⟨d', hd⟩ := exec_cases i s
  · obtain rfl := Host.Outcome.next.inj (he.symm.trans h)
    exact raise_eq_of_rsp hfail
  · obtain rfl := Host.Outcome.next.inj (hd.symm.trans h)
    simp at hfail

/-- So does an accepted word that fails, illegal or not, once its operand is sampled. -/
theorem issue_fail {w : CmdWord} {d r : Block} {s t : State} {e : Error} (h : issue w d s = .next t)
    (hfail : t.rsp = some ⟨.fail e, r⟩) : t = raise e (sample d s) := by
  obtain ⟨i, -, hi⟩ | ⟨why, -, hi⟩ := issueOn_cases tables w d s
  · rw [execOn_tables] at hi
    exact exec_fail (hi.symm.trans h) hfail
  · obtain rfl := Host.Outcome.next.inj (hi.symm.trans h)
    exact raise_eq_of_rsp hfail

/-- Settles O20: the bit that `raise` sets is `ERR[c-1]` for the error's code c, error by error. -/
theorem failureOnlySetsItsErrorBit : Obligations.FailureOnlySetsItsErrorBit := by
  unfold Obligations.FailureOnlySetsItsErrorBit
  intro failed
  have hraise (e : Error) (s : State) : raise e s = failed e s := by cases e <;> rfl
  exact ⟨fun w d s t e r h hfail => (issue_fail h hfail).trans (hraise e _),
    fun i s t e r h hfail => (exec_fail h hfail).trans (hraise e s)⟩

end Sys2Proof.Machine
end

section
/-! SUPPORT. Facts about fixed values of the spec: the decoding vectors of 95_test_vectors.md, and the source bits that the
default PC1 leaves out (40_primitives_and_tables.md R108, R120). -/

namespace Sys2Proof.Machine

/-! ### The decoding vectors -/

/-- Settles O5: the six legal words are encodings (`decodeAfterEncode`), the three illegal ones are decoded. -/
theorem sampleWordsDecode : Obligations.SampleWordsDecode :=
  ⟨decodeAfterEncode .ldkey rfl, decodeAfterEncode .enc rfl, decodeAfterEncode (.rdrk 1) rfl,
    decodeAfterEncode (.rdrk 31) rfl, decodeAfterEncode (.rdtr 16) rfl, decodeAfterEncode .rdst rfl,
    by decide, by decide, by decide⟩

/-! ### The key bits that the schedule reads -/

/-- A permuted value depends on the bits its table names alone (R100). -/
theorem permute_congr {n m : Nat} {V W : BitVec n} {T : Vector Nat m} (h : ∀ j : Fin m, srcBit V T[j] = srcBit W T[j]) :
    permute V T = permute W T := by
  apply eq_of_srcBit
  intro i h1 hm
  obtain ⟨j, rfl⟩ : ∃ j : Fin m, i = j.val + 1 := ⟨⟨i - 1, by omega⟩, (Nat.sub_add_cancel h1).symm⟩
  rw [srcBit_permute_entry, srcBit_permute_entry, h j]

/-- The schedule sees the key through PC1 alone (R130). -/
theorem ks_congr {T : Tables} {k k' : Block} (h : permute k T.pc1 = permute k' T.pc1) : ks T k = ks T k' := by
  have hstart : ksStart T k = ksStart T k' := by rw [ksStart, ksStart, h]
  have hhalves (i : Fin 16) : ksHalves T k (i.val + 1) = ksHalves T k' (i.val + 1) := by
    rw [ksHalves_eq_rotL T k i.isLt, ksHalves_eq_rotL T k' i.isLt, hstart]
  simp only [ks, hhalves]

/-- The default PC1 names no eighth bit (R108). -/
theorem desPC1_mod_eight (j : Fin 56) : desPC1[j] % 8 ≠ 0 := by
  revert j
  decide +kernel

/-- Settles O32: PC1 names only source bits in which the keys agree. -/
theorem defaultScheduleIgnoresEighthBits : Obligations.DefaultScheduleIgnoresEighthBits := by
  intro k k' hagree
  have hpc1 (j : Fin 56) : srcBit k desPC1[j] = srcBit k' desPC1[j] := by
    obtain ⟨h1, h64⟩ := machineTablesWellFormed.pc1_range j
    exact hagree _ h1 h64 (desPC1_mod_eight j)
  exact ks_congr (permute_congr hpc1)

end Sys2Proof.Machine
end
